-- ==== Sys2Proof/Word.lean ====
section
/-! DEFINITION. The three bit widths of the hash processor: bytes of payloads and of the pending buffer
(20_memory.md R40), 32-bit datapath words (00_scope.md R7) and 128-bit descriptors (30_encoding.md R60). -/

namespace Sys2Proof

/-- One byte of `PAY`, `BUF` or `RPAY` (R40). -/
abbrev Byte := BitVec 8

/-- A lane, an accumulator, a seed, a digest: `W = 32` bits (R7). -/
abbrev Word := BitVec 32

/-- A command or response descriptor: `DESCW = 128` bits (R9, R60). -/
abbrev Desc := BitVec 128

end Sys2Proof
end

