-- ==== Sys2Proof/Config.lean ====
section
/-! DEFINITION. The implementation parameters of 00_scope.md R7 to R9. The five constants are the defaults that R8
gives (decision D24; log entry 3); nothing else is free, so no opaque value stands here. -/

namespace Sys2Proof.Config

/-- `P1` (R8). -/
def P1 : Word := 0x9E3779B1#32
/-- `P2` (R8). -/
def P2 : Word := 0x85EBCA77#32
/-- `P3` (R8). -/
def P3 : Word := 0xC2B2AE3D#32
/-- `P4` (R8). -/
def P4 : Word := 0x27D4EB2F#32
/-- `P5` (R8). -/
def P5 : Word := 0x165667B1#32

/-- `BLOCK = 16` bytes: the group the four lanes consume in one step (R7). -/
def block : Nat := 16

/-- `BUFCAP = 16` cells of the pending buffer (R7). -/
def bufCap : Nat := 16

/-- `DIGEST_BYTES = 4`, the constant `SIZE` returns (R7, R28). -/
def digestBytes : Word := 4#32

/-- `BLOCKSIZE_INFO = 4`, the constant `BLOCKSIZE` returns; it is not `BLOCK` (R7, R28, conflict C2). -/
def blockSizeInfo : Word := 4#32

/-- The largest value of the 64-bit length counter, `2^64 - 1` with `LENW = 64` (R9, R23). -/
def lenMax : Nat := 2 ^ 64 - 1

end Sys2Proof.Config
end

