-- ==== Sys2Proof/Syntax.lean ====
section
/-! DEFINITION. The eight commands of 30_encoding.md R66 as syntax, with the operands that R64 gives them: the seed
operand `D.SEED` and the payload `PAY[0..D.LEN-1]`. The length operand `D.LEN` is the payload's length (R62, R78), so it
is no operand of its own here. The pseudo-commands of R77 are lists of commands. -/

namespace Sys2Proof

/-- The mnemonics of the opcode table (R66). -/
inductive Mnemonic where
  | new | reset | write | sum32 | sum | size | blocksize | checksum
deriving DecidableEq, Repr

/-- One command with its operands: one constructor per row of the opcode table (R66). -/
inductive Instr where
  /-- `NEW <seed>` (R120). -/
  | new (seed : Word)
  /-- `RESET` (R121). -/
  | reset
  /-- `WRITE <bytes>` (R122). -/
  | write (data : List Byte)
  /-- `SUM32` (R127). -/
  | sum32
  /-- `SUM <bytes>`; the payload is the prefix to return before the digest (R129). -/
  | sum (pre : List Byte)
  /-- `SIZE` (R144). -/
  | size
  /-- `BLOCKSIZE` (R145). -/
  | blocksize
  /-- `CHECKSUM <seed>, <bytes>` (R140). -/
  | checksum (seed : Word) (data : List Byte)
deriving DecidableEq, Repr

/-- The row of the opcode table a command belongs to. -/
def Instr.mnemonic : Instr → Mnemonic
  | .new _ => .new
  | .reset => .reset
  | .write _ => .write
  | .sum32 => .sum32
  | .sum _ => .sum
  | .size => .size
  | .blocksize => .blocksize
  | .checksum _ _ => .checksum

/-- The seed operand, zero where the command has none (R61, R75 "Unnamed fields are zero"). -/
def Instr.seedField : Instr → Word
  | .new seed => seed
  | .reset => 0#32
  | .write _ => 0#32
  | .sum32 => 0#32
  | .sum _ => 0#32
  | .size => 0#32
  | .blocksize => 0#32
  | .checksum seed _ => seed

/-- The payload that accompanies a command, empty where it takes none (R41, R61). -/
def Instr.payload : Instr → List Byte
  | .new _ => []
  | .reset => []
  | .write data => data
  | .sum32 => []
  | .sum pre => pre
  | .size => []
  | .blocksize => []
  | .checksum _ data => data

/-- The pseudo-command `DIGEST`, which expands to `SUM x""` (R77). -/
def Instr.pseudoDigest : List Instr := [.sum []]

/-- The pseudo-command `HASH <seed>, <bytes>`, which expands to three commands (R77). -/
def Instr.pseudoHash (seed : Word) (data : List Byte) : List Instr := [.new seed, .write data, .sum32]

end Sys2Proof
end

