-- ==== Sys2Proof/WellFormed.lean ====
section
/-! DEFINITION. Which commands an encoding exists for. The payload length travels in the 64-bit field `D.LEN`
(30_encoding.md R61), so a payload has fewer than `2^64` bytes; every seed is legal (R64, R69). The well-formedness of a
descriptor and payload PAIR (R78) is `Command.wellFormed` in Decode.lean, which reads the field `D.LEN`. -/

namespace Sys2Proof

/-- The payload's length fits the field `D.LEN` (R61, R64). -/
def Instr.wellFormed (i : Instr) : Bool := decide (i.payload.length < 2 ^ 64)

end Sys2Proof
end

