-- ==== Sys2Proof/Decode.lean ====
section
/-! DEFINITION. Descriptors, their serialization, payload framing, the opcode table, the decoder and the encoder:
30_encoding.md R60 to R69, R78. -/

namespace Sys2Proof

/-! ### The fields of a command descriptor (format `CD`, R61) -/

/-- `D.OP = D[7:0]` (R61). -/
def Desc.op (d : Desc) : Byte := d.extractLsb' 0 8

/-- `D.RSV = D[31:8]` (R61). -/
def Desc.rsv (d : Desc) : BitVec 24 := d.extractLsb' 8 24

/-- `D.SEED = D[63:32]` (R61). -/
def Desc.seed (d : Desc) : Word := d.extractLsb' 32 32

/-- `D.LEN = D[127:64]` (R61). -/
def Desc.len (d : Desc) : BitVec 64 := d.extractLsb' 64 64

/-! ### Serialization (R63) -/

/-- The 16 bytes of a descriptor, byte `k` being bits `[8k+7 : 8k]` (R63). -/
def descBytes (d : Desc) : List Byte := (List.range 16).map fun k => d.extractLsb' (8 * k) 8

/-- The descriptor whose bytes stand at the head of a list, byte 0 least significant (R63). Bytes after the sixteenth are
not looked at; a missing byte reads as zero, which no caller meets. -/
def descOfBytes (bs : List Byte) : Desc :=
  BitVec.ofNat 128 ((bs.take 16).foldr (fun b acc => b.toNat + 256 * acc) 0)

/-! ### Commands and their framing (R60, R62, R78) -/

/-- A command as the host presents it: a descriptor and its payload (R60). -/
structure Command where
  /-- The command descriptor `D`. -/
  desc : Desc
  /-- The payload `PAY`. -/
  pay : List Byte
deriving DecidableEq, Repr

/-- "A command is well formed when its payload has exactly `D.LEN` bytes" (R78). -/
def Command.wellFormed (c : Command) : Bool := c.pay.length == (Desc.len c.desc).toNat

/-- A command on a byte-wide channel: the 16 descriptor bytes, then the payload bytes in offset order (R63). -/
def Command.bytes (c : Command) : List Byte := descBytes c.desc ++ c.pay

/-- The first command on a byte-wide channel and the bytes after it. Its end is found from `D.LEN` alone, before `D.OP`
is looked at (R62). There is no answer while the channel holds fewer bytes than the command has. -/
def takeCommand (bs : List Byte) : Option (Command × List Byte) :=
  let d := descOfBytes bs
  let n := (Desc.len d).toNat
  if 16 + n ≤ bs.length then
    some (⟨d, (bs.drop 16).take n⟩, (bs.drop 16).drop n)
  else
    none

/-! ### The opcode map (R66) -/

/-- A row of the opcode table (R66). -/
structure Row where
  /-- The command the row stands for. -/
  op : Mnemonic
  /-- The bits that the row fixes. -/
  mask : Desc
  /-- What the fixed bits must be (the table's `match`). -/
  pat : Desc
deriving DecidableEq, Repr

/-- The row's `match` equals `D and mask` (R65). -/
def Row.covers (r : Row) (d : Desc) : Bool := d &&& r.mask == r.pat

/-- The eight rows of R66, `mask` and `match` as the table prints them. -/
def opcodeTable : List Row :=
  [⟨.new,       0xFFFFFFFFFFFFFFFF00000000FFFFFFFF#128, 0x00000000000000000000000000000001#128⟩,
   ⟨.reset,     0xFFFFFFFFFFFFFFFFFFFFFFFFFFFFFFFF#128, 0x00000000000000000000000000000002#128⟩,
   ⟨.write,     0x0000000000000000FFFFFFFFFFFFFFFF#128, 0x00000000000000000000000000000003#128⟩,
   ⟨.sum32,     0xFFFFFFFFFFFFFFFFFFFFFFFFFFFFFFFF#128, 0x00000000000000000000000000000004#128⟩,
   ⟨.sum,       0x0000000000000000FFFFFFFFFFFFFFFF#128, 0x00000000000000000000000000000005#128⟩,
   ⟨.size,      0xFFFFFFFFFFFFFFFFFFFFFFFFFFFFFFFF#128, 0x00000000000000000000000000000006#128⟩,
   ⟨.blocksize, 0xFFFFFFFFFFFFFFFFFFFFFFFFFFFFFFFF#128, 0x00000000000000000000000000000007#128⟩,
   ⟨.checksum,  0x000000000000000000000000FFFFFFFF#128, 0x00000000000000000000000000000008#128⟩]

/-- The command a descriptor selects, if any row matches (R65). -/
def lookup (d : Desc) : Option Mnemonic := (opcodeTable.find? fun r => r.covers d).map Row.op

/-- Operand assembly: the seed and the payload as they stand (R64). -/
def operands (m : Mnemonic) (d : Desc) (pay : List Byte) : Instr :=
  match m with
  | .new => .new (Desc.seed d)
  | .reset => .reset
  | .write => .write pay
  | .sum32 => .sum32
  | .sum => .sum pay
  | .size => .size
  | .blocksize => .blocksize
  | .checksum => .checksum (Desc.seed d) pay

/-! ### Decoding (R65) -/

/-- Why bytes, or a descriptor and payload, decode to no command. -/
inductive DecodeError where
  /-- Fewer bytes than a descriptor and its `D.LEN` payload bytes: no whole command is there (R62, U6). -/
  | incomplete
  /-- The payload's length is not `D.LEN`: "not a command" (R62, R78, U6). -/
  | payloadLength
  /-- No row of the opcode table matches; the opcode as received (R65, R67, R68, R154). -/
  | illegalCommand (op : Byte)
deriving DecidableEq, Repr

/-- The command of a descriptor and payload, or the reason there is none (R65, R78). -/
def decodeCommand (c : Command) : Except DecodeError Instr :=
  if c.wellFormed then
    match lookup c.desc with
    | some m => .ok (operands m c.desc c.pay)
    | none => .error (.illegalCommand (Desc.op c.desc))
  else
    .error .payloadLength

/-- The decoder on bytes: the first command of a byte-wide channel and the bytes after it (R62, R63, R65). -/
def decode (bs : List Byte) : Except DecodeError (Instr × List Byte) :=
  match takeCommand bs with
  | none => .error .incomplete
  | some (c, rest) =>
    match decodeCommand c with
    | .ok i => .ok (i, rest)
    | .error e => .error e

/-! ### The encoder (R61, R63, R66, R75) -/

/-- The opcode of a command, `D.OP` (R66). -/
def Mnemonic.code : Mnemonic → Byte
  | .new => 0x01#8
  | .reset => 0x02#8
  | .write => 0x03#8
  | .sum32 => 0x04#8
  | .sum => 0x05#8
  | .size => 0x06#8
  | .blocksize => 0x07#8
  | .checksum => 0x08#8

/-- A command descriptor from its fields, `LEN` most significant (R61). -/
def mkDesc (op : Byte) (rsv : BitVec 24) (seed : Word) (len : BitVec 64) : Desc :=
  len ++ (seed ++ (rsv ++ op))

/-- The descriptor of a command: `RSV` zero, unused fields zero, `LEN` the payload's length (R61, R75). -/
def encodeDesc (i : Instr) : Desc :=
  mkDesc i.mnemonic.code 0#24 i.seedField (BitVec.ofNat 64 i.payload.length)

/-- The descriptor and payload of a command (R60, R75). -/
def encodeCommand (i : Instr) : Command := ⟨encodeDesc i, i.payload⟩

/-- The bytes of a command on a byte-wide channel (R63). -/
def encode (i : Instr) : List Byte := (encodeCommand i).bytes

/-! ### A word of the opcode table as bytes -/

/-- The bytes of the command whose low `nbits` descriptor bits are `w`, all its higher bits zero: the descriptor's 16
bytes, then `D.LEN` payload bytes of zero. -/
def tableWordBytes (nbits w : Nat) : List Byte :=
  let d : Desc := BitVec.ofNat 128 (w % 2 ^ nbits)
  descBytes d ++ List.replicate (Desc.len d).toNat 0#8

/-- What the decoder reads from such a command. -/
def decodeTableWord (nbits w : Nat) : Option Instr :=
  match decode (tableWordBytes nbits w) with
  | .ok (i, _) => some i
  | .error _ => none

end Sys2Proof
end

