-- ==== Sys2Proof/Machine/State.lean ====
section
/-! DEFINITION. The state of the hash processor (10_state.md R20 to R26), the channel by which the host reaches it
(30_encoding.md R60 to R63, R71), and its state after power-on reset (R36, R170, R171). -/

namespace Sys2Proof.Machine

/-- The four accumulators `V1`..`V4`, or the transient `T1`..`T4` of `CHECKSUM` (R22, R30). -/
@[ext]
structure Lanes where
  /-- Lane 1's accumulator. -/
  v1 : Word
  /-- Lane 2's accumulator. -/
  v2 : Word
  /-- Lane 3's accumulator. -/
  v3 : Word
  /-- Lane 4's accumulator. -/
  v4 : Word
deriving DecidableEq, Repr

/-- The cells of the byte space `BUF` (R25, R43) as (index, byte) pairs: indices strictly rising, no pair equal to what an
unlisted index reads as (`Memory.wf` in Ops.lean). -/
abbrev Memory := List Host.Cell

/-- What a command returns: the response descriptor `RD` (format `RDF`, R71) and the response payload `RPAY` (R42). -/
@[ext]
structure Response where
  /-- The response descriptor `RD`. -/
  rd : Desc
  /-- The response payload `RPAY`. -/
  rpay : List Byte
deriving DecidableEq, Repr

/-- The machine. The first six fields are the hasher context, the whole architectural state (R20); the last three are the
host's side of the command interface (log entries 4 and 5). -/
@[ext]
structure State where
  /-- `VALID`: a `NEW` has executed since power-on reset (R26). -/
  valid : Bool
  /-- `SEED`: the stored seed (R21). -/
  seed : Word
  /-- `V1`..`V4`: the accumulators (R22). -/
  v : Lanes
  /-- `LEN`: the payload bytes accepted by `WRITE` since the last `NEW` or `RESET` (R23). -/
  len : BitVec 64
  /-- `CNT`: the number of valid pending bytes (R24). -/
  cnt : BitVec 4
  /-- `BUF[0..15]`: the pending-byte buffer (R25). -/
  buf : Memory
  /-- The power-on reset input: the host asks for a reset (R170). -/
  por : Bool
  /-- The bytes the host has presented and the processor has not consumed, oldest first (R62, R63). -/
  input : List Byte
  /-- The responses produced, oldest first (R71, R182). -/
  responses : List Response
deriving DecidableEq, Repr

/-- How the machine would stop with a fault. The spec's own three faults are no stops: they are responses (R152). -/
inductive Fault where
  /-- An access to `BUF` at an index of 16 or more, which does not exist (R43, R52). Raised by `storeBuf` only; by R53 no
  command makes such an access, so it marks a wrong loop condition. Safe: the machine stops. -/
  | bufIndex
deriving DecidableEq, Repr

/-- What the model has no move for. -/
inductive Refusal where
  /-- An instruction without a meaning yet, rejected in `exec` by its mnemonic. Safe: the machine stops. -/
  | notModelled (mnemonic : String)
  /-- A descriptor without exactly its `D.LEN` payload bytes is "not a command" (R62, R78, U6: `refuse`): in a step, the
  host has presented fewer bytes than the descriptor and payload have, and no more. Raised by `sequencer` and
  `runCommand`. Safe: the machine stops. -/
  | notACommand
deriving DecidableEq, Repr

/-- Power-on reset: `VALID` is 0 (R36, R170). The spec leaves every other register unspecified; the zeros here are the
model's (DESIGN CHOICE, unsafe, log entry 1). No command has been presented and none has responded. -/
def State.reset : State where
  valid := false
  seed := 0#32
  v := ⟨0#32, 0#32, 0#32, 0#32⟩
  len := 0#64
  cnt := 0#4
  buf := []
  por := false
  input := []
  responses := []

end Sys2Proof.Machine
end

