-- ==== Sys2Proof/Machine/Ops.lean ====
section
/-! DEFINITION. The operations that more than one command uses: the byte space `BUF` (20_memory.md R43), the writes of
the registers, responding (00_scope.md R14, 30_encoding.md R71 to R73), taking a fault (60_exceptions.md R152) and
power-on reset (R170). A fault saves nothing and goes nowhere, so there is no return from one (R159). -/

namespace Sys2Proof.Machine

/-! ### The byte space `BUF` -/

/-- What a cell that nothing has written reads as. The spec gives it no value (R25, R36); no rule reads such a cell.
DESIGN CHOICE, unsafe, log entry 2. -/
def Memory.unlisted : Byte := 0#8

/-- The canonical form: indices of the sixteen cells, strictly rising, no pair that an unlisted index would read as. -/
abbrev Memory.wf (m : Memory) : Prop :=
  m.Pairwise (fun c d => c.1 < d.1) ∧ ∀ c ∈ m, c.1 < Config.bufCap ∧ c.2 ≠ Memory.unlisted

/-- `MemRead(BUF, a, 1)` (R13). -/
def Memory.read : Memory → Nat → Byte
  | [], _ => Memory.unlisted
  | (k, b) :: m, a => if a = k then b else Memory.read m a

/-- `MemWrite(BUF, a, 1, b)` (R13), keeping the canonical form. -/
def Memory.write : Memory → Nat → Byte → Memory
  | [], a, b => if b = Memory.unlisted then [] else [(a, b)]
  | (k, c) :: m, a, b =>
    if a < k then (if b = Memory.unlisted then (k, c) :: m else (a, b) :: (k, c) :: m)
    else if a = k then (if b = Memory.unlisted then m else (a, b) :: m)
    else (k, c) :: Memory.write m a b

/-- One byte at a time, at increasing indices from `a` (R43). -/
def Memory.writeBytes : Memory → Nat → List Byte → Memory
  | m, _, [] => m
  | m, a, b :: bs => Memory.writeBytes (m.write a b) (a + 1) bs

/-- `BUF[a .. a+n-1]` (R13). -/
def Memory.range (m : Memory) (a n : Nat) : List Byte := (List.range n).map fun i => m.read (a + i)

/-- `PEND = BUF[0..CNT-1]`, the architectural content of the buffer (R25). -/
def State.pend (s : State) : List Byte := s.buf.range 0 s.cnt.toNat

/-! ### Register writes -/

/-- The accumulators of a fresh hasher and no input, what `NEW` and `RESET` share (R120, R121). -/
def State.restart (s : State) (v : Lanes) : State := { s with v := v, len := 0#64, cnt := 0#4 }

/-- `SEED <- seed` and `VALID <- 1` (R120). -/
def State.construct (s : State) (seed : Word) : State := { s with valid := true, seed := seed }

/-- `LEN <- LEN + n` (R122). -/
def State.addLen (s : State) (n : Nat) : State := { s with len := s.len + BitVec.ofNat 64 n }

/-- `(V1,V2,V3,V4) <- v` (R122). -/
def State.setLanes (s : State) (v : Lanes) : State := { s with v := v }

/-- `CNT <- n` (R122). -/
def State.setCnt (s : State) (n : Nat) : State := { s with cnt := BitVec.ofNat 4 n }

/-- The buffer after a run of byte writes. -/
def State.setBuf (s : State) (m : Memory) : State := { s with buf := m }

/-- The bytes of the channel that are still to be consumed. -/
def State.setInput (s : State) (bs : List Byte) : State := { s with input := bs }

/-- The writes `MemWrite(BUF, a + i, 1, bs[i])` for `i` in `0..|bs|-1`, then `k`; a run that leaves the sixteen cells is a
fault of the model (R43, R52, R53). -/
def storeBuf (a : Nat) (bs : List Byte) (k : State → Host.Outcome State Fault Refusal) (s : State) :
    Host.Outcome State Fault Refusal :=
  if a + bs.length ≤ Config.bufCap then k (s.setBuf (s.buf.writeBytes a bs)) else .fault .bufIndex

/-! ### Responses -/

/-- `STATUS` of a command that executed (R71, R151). -/
def okCode : Byte := 0x00#8

/-- The three faults of the hardware (R151). -/
inductive Cause where
  | illegalCommand | notConstructed | lengthOverflow
deriving DecidableEq, Repr

/-- `STATUS` of a faulting command (R151). -/
def Cause.code : Cause → Byte
  | .illegalCommand => 0x01#8
  | .notConstructed => 0x02#8
  | .lengthOverflow => 0x03#8

/-- A response descriptor from its fields, `CNT` most significant, `RD[31:16]` zero (R71). -/
def mkResponseDesc (status op : Byte) (val : Word) (cnt : BitVec 64) : Desc :=
  cnt ++ (val ++ (0#16 ++ (op ++ status)))

/-- `RD[7:0]` (R71). -/
def Response.status (r : Response) : Byte := r.rd.extractLsb' 0 8

/-- `RD[15:8]` (R71). -/
def Response.op (r : Response) : Byte := r.rd.extractLsb' 8 8

/-- `RD[31:16]`, always zero (R71). -/
def Response.zero (r : Response) : BitVec 16 := r.rd.extractLsb' 16 16

/-- `RD[63:32]` (R71). -/
def Response.val (r : Response) : Word := r.rd.extractLsb' 32 32

/-- `RD[127:64]` (R71). -/
def Response.cnt (r : Response) : BitVec 64 := r.rd.extractLsb' 64 64

/-- A response as bytes: the 16 descriptor bytes (R63), then `RPAY` in emission order. R63 orders descriptor and payload on
the COMMAND channel only; that a response has the same order is the model's choice (DESIGN CHOICE, log entry 10). -/
def Response.bytes (r : Response) : List Byte := descBytes r.rd ++ r.rpay

/-- Produces one response. -/
def State.emit (s : State) (r : Response) : State := { s with responses := s.responses ++ [r] }

/-- `respond(OK, val, cnt)` after emitting `rpay` (R14, R42, R72). -/
def respond (m : Mnemonic) (val : Word) (cnt : BitVec 64) (rpay : List Byte) (s : State) :
    Host.Outcome State Fault Refusal :=
  .next (s.emit ⟨mkResponseDesc okCode m.code val cnt, rpay⟩)

/-! ### Taking a fault -/

/-- `raise F` (R14, R152): no register, flag or buffer cell is written, nothing is emitted, and the response is `STATUS =
code(F), OP = D.OP, VAL = 0, CNT = 0` (R73). The payload has been consumed already (R62). The machine goes on. -/
def raise (f : Cause) (op : Byte) (s : State) : Host.Outcome State Fault Refusal :=
  .next (s.emit ⟨mkResponseDesc f.code op 0#32 0#64, []⟩)

/-! ### Power-on reset -/

/-- Power-on reset: `VALID <- 0`, every other register as at `State.reset`, a command in progress abandoned, no response
(R170). The registers that R170 leaves unspecified: log entry 1. That the bytes waiting are dropped, the responses received are
kept and the reset input falls back: DEDUCED, log entry 6. -/
def powerOnReset (s : State) : State := { State.reset with responses := s.responses }

end Sys2Proof.Machine
end

