-- ==== Sys2Proof/Machine/Flags.lean ====
section
/-! DEFINITION. The one flag, `VALID` (10_state.md R26), and the comparisons that a command makes and consumes (R27).
There are no condition codes. -/

namespace Sys2Proof.Machine

/-- `if VALID = 0: raise NotConstructed`, the first check of `RESET`, `WRITE`, `SUM32` and `SUM` (R155, R157). -/
def whenConstructed (m : Mnemonic) (k : State → Host.Outcome State Fault Refusal) (s : State) :
    Host.Outcome State Fault Refusal :=
  if s.valid then k s else raise .notConstructed m.code s

/-- `LEN + L > 2^64 - 1`, the sum formed without wrap (R122, R156). -/
def writeOverflows (len : BitVec 64) (n : Nat) : Bool := decide (Config.lenMax < len.toNat + n)

/-- `L > 2^64 - 5`: `L + 4` would not fit the response count (R129, R130). -/
def sumOverflows (n : Nat) : Bool := decide (Config.lenMax - 4 < n)

/-- `CNT + L < 16`, the sum formed without wrap: the short path (R122). -/
def fitsPending (cnt : BitVec 4) (n : Nat) : Bool := decide (cnt.toNat + n < Config.bufCap)

/-- `n < 16` on the whole length, not on its low 32 bits (R108). -/
def shortInput (n : Nat) : Bool := decide (n < Config.block)

end Sys2Proof.Machine
end

