-- ==== Sys2Proof/Machine/Operands.lean ====
section
/-! DEFINITION. How bytes become operands: little-endian words at any offset (20_memory.md R44, R48), zero-extended
single bytes (R46), the low half of a length (40_datapath_units.md R109), and the big-endian bytes of a digest (R45). -/

namespace Sys2Proof.Machine

/-- `LE32` of four bytes, the first least significant (R44). -/
def le32 (b0 b1 b2 b3 : Byte) : Word := b3 ++ (b2 ++ (b1 ++ b0))

/-- `MemRead(S, a, 4) = LE32(S, a)` at any alignment (R13, R48). No caller reads past the end (R53). -/
def le32At (bs : List Byte) (a : Nat) : Word :=
  le32 (bs.getD a 0#8) (bs.getD (a + 1) 0#8) (bs.getD (a + 2) 0#8) (bs.getD (a + 3) 0#8)

/-- `zext_32(b)`; no byte is ever sign-extended (R46). -/
def byteWord (b : Byte) : Word := b.zeroExtend 32

/-- `n[31:0]` of a length (R109). -/
def lenWord (n : Nat) : Word := BitVec.ofNat 32 n

/-- A digest as the bytes `SUM` emits, most significant first (R45). -/
def digestBytes (d : Word) : List Byte :=
  [d.extractLsb' 24 8, d.extractLsb' 16 8, d.extractLsb' 8 8, d.extractLsb' 0 8]

end Sys2Proof.Machine
end

