-- ==== Sys2Proof/Machine/Datapath.lean ====
section
/-! DEFINITION. The functional units of 40_datapath_units.md: initializer, round lanes, block processor, tail mixer,
finalizer, digest combination. All are pure and total (R112); addition, subtraction and multiplication of words are
`+32`, `-32`, `*32` (00_scope.md R11, R91). -/

namespace Sys2Proof.Machine

open Sys2Proof.Config

/-- `rotl32(a, r)` for `0 < r < 32` (R11, R92). -/
def rotl32 (a : Word) (r : Nat) : Word := (a <<< r) ||| (a >>> (32 - r))

/-- `Init(seed)` (R93). -/
def init (seed : Word) : Lanes := ⟨seed + P1 + P2, seed + P2, seed, seed - P1⟩

/-- `Round(v, x)` (R94). -/
def laneRound (v x : Word) : Word := rotl32 (v + x * P2) 13 * P1

/-- `BlockStep`: lane `i` takes the `i`-th word of the block, and no other lane's accumulator (R95, R96, R97). -/
def blockStep (v : Lanes) (b : List Byte) : Lanes :=
  ⟨laneRound v.v1 (le32At b 0), laneRound v.v2 (le32At b 4), laneRound v.v3 (le32At b 8), laneRound v.v4 (le32At b 12)⟩

/-- The loop of `Blocks`: the accumulators, the bytes still unconsumed and the offset `p` of the first of them. The test
is made once per 16-byte group (R98, conflict C4). `fuel` bounds the iterations. -/
def blocksLoop : Nat → Lanes → List Byte → Nat → Lanes × Nat
  | 0, v, _, p => (v, p)
  | fuel + 1, v, bs, p =>
    if block ≤ bs.length then blocksLoop fuel (blockStep v (bs.take block)) (bs.drop block) (p + block)
    else (v, p)

/-- `Blocks(v, S[a..e])` on the bytes of the range: the accumulators and `p - a` (R98). -/
def blocks (v : Lanes) (bs : List Byte) : Lanes × Nat := blocksLoop bs.length v bs 0

/-- `TailWord(h, w)` (R101). -/
def tailWord (h w : Word) : Word := rotl32 (h + w * P3) 17 * P4

/-- `TailByte(h, b)` (R102). -/
def tailByte (h : Word) (b : Byte) : Word := rotl32 (h + byteWord b * P5) 11 * P1

/-- The word loop of `Tail`: complete 4-byte groups, left to right, and the bytes that are left (R103). -/
def tailWords : Word → List Byte → Word × List Byte
  | h, b0 :: b1 :: b2 :: b3 :: bs => tailWords (tailWord h (le32 b0 b1 b2 b3)) bs
  | h, bs => (h, bs)

/-- `Tail(h, S[a..e])`: "all full groups first, then single bytes" (R103). -/
def tail (h : Word) (bs : List Byte) : Word :=
  (tailWords h bs).2.foldl tailByte (tailWords h bs).1

/-- `Fmix(h)` (R105). -/
def fmix (h0 : Word) : Word :=
  let h1 := h0 ^^^ (h0 >>> 15)
  let h2 := h1 * P2
  let h3 := h2 ^^^ (h2 >>> 13)
  let h4 := h3 * P3
  h4 ^^^ (h4 >>> 16)

/-- `Merge(v1, v2, v3, v4)` (R107). -/
def merge (v : Lanes) : Word := rotl32 v.v1 1 + rotl32 v.v2 7 + rotl32 v.v3 12 + rotl32 v.v4 18

/-- The start value of `Combine`: `seed +32 P5` for a short input (R108), else `Merge` (R107, R110). -/
def startValue (seed : Word) (v : Lanes) (n : Nat) : Word := if shortInput n then seed + P5 else merge v

/-- `Combine(seed, v, n, S[a..e])`: start value, length fold, tail, finalizer, in this order (R110). -/
def combine (seed : Word) (v : Lanes) (n : Nat) (bs : List Byte) : Word :=
  fmix (tail (startValue seed v n + lenWord n) bs)

/-- `Hash32(seed, B)`, the whole algorithm (R113). -/
def hash32 (seed : Word) (bs : List Byte) : Word :=
  let r := blocks (init seed) bs
  combine seed r.1 bs.length (bs.drop r.2)

end Sys2Proof.Machine
end

