-- ==== Sys2Proof/Machine/OneShot.lean ====
section
/-! DEFINITION. The three commands that touch no state: 42_oneshot_info_commands.md R140 to R145. -/

namespace Sys2Proof.Machine

/-- `CHECKSUM <seed>, <bytes>`: `Hash32(D.SEED, PAY)` over transient accumulators, legal also while `VALID = 0` (R140,
R141). -/
def execChecksum (seed : Word) (data : List Byte) (s : State) : Host.Outcome State Fault Refusal :=
  respond .checksum (hash32 seed data) 0#64 [] s

/-- `SIZE`: the digest width in bytes (R144). -/
def execSize (s : State) : Host.Outcome State Fault Refusal :=
  respond .size Config.digestBytes 0#64 [] s

/-- `BLOCKSIZE`: the informational constant, not the 16-byte block (R145). -/
def execBlocksize (s : State) : Host.Outcome State Fault Refusal :=
  respond .blocksize Config.blockSizeInfo 0#64 [] s

end Sys2Proof.Machine
end

