-- ==== Sys2Proof/Machine/Streaming.lean ====
section
/-! DEFINITION. The five commands that act on the hasher context: 41_streaming_commands.md R120 to R131. -/

namespace Sys2Proof.Machine

/-- `NEW <seed>`: legal in every state; `BUF` is not written (R120). -/
def execNew (seed : Word) (s : State) : Host.Outcome State Fault Refusal :=
  respond .new 0#32 0#64 [] ((s.construct seed).restart (init seed))

/-- `RESET`: the initial state for the stored seed; `SEED`, `VALID` and `BUF` are not written (R121). -/
def execReset (s : State) : Host.Outcome State Fault Refusal :=
  whenConstructed .reset (fun s => respond .reset 0#32 0#64 [] (s.restart (init s.seed))) s

/-- `WRITE`, short path: the payload is appended to the pending bytes; no accumulator changes (R123). -/
def writeShort (data : List Byte) (s : State) : Host.Outcome State Fault Refusal :=
  storeBuf s.cnt.toNat data
    (fun s1 => respond .write 0#32 (BitVec.ofNat 64 data.length) [] (s1.setCnt (s.cnt.toNat + data.length))) s

/-- `WRITE`, long path: the head completes the buffer to one block, further blocks are read from the payload in place,
the remainder goes to the buffer (R124). -/
def writeLong (data : List Byte) (s : State) : Host.Outcome State Fault Refusal :=
  let f := Config.bufCap - s.cnt.toNat
  storeBuf s.cnt.toNat (data.take f) (fun s1 =>
    let v1 := blockStep s1.v (s1.buf.range 0 Config.block)
    let direct := blocks v1 (data.drop f)
    let rest := (data.drop f).drop direct.2
    storeBuf 0 rest (fun s2 =>
      respond .write 0#32 (BitVec.ofNat 64 data.length) [] ((s2.setLanes direct.1).setCnt rest.length)) s1) s

/-- `WRITE <bytes>`: both checks come before any write, and `LEN` grows "even for zero-length input" (R122, R153). -/
def execWrite (data : List Byte) (s : State) : Host.Outcome State Fault Refusal :=
  whenConstructed .write (fun s =>
    if writeOverflows s.len data.length then raise .lengthOverflow Mnemonic.write.code s
    else if fitsPending s.cnt data.length then writeShort data (s.addLen data.length)
    else writeLong data (s.addLen data.length)) s

/-- The digest of the context, a function of the registers and the pending bytes; nothing is written (R111, R127). -/
def State.digest (s : State) : Word := combine s.seed s.v s.len.toNat s.pend

/-- `SUM32` (R127). -/
def execSum32 (s : State) : Host.Outcome State Fault Refusal :=
  whenConstructed .sum32 (fun s => respond .sum32 s.digest 0#64 [] s) s

/-- `SUM <bytes>`: the prefix as it stands, then the four digest bytes; the prefix is not hashed (R129 to R131). -/
def execSum (pre : List Byte) (s : State) : Host.Outcome State Fault Refusal :=
  whenConstructed .sum (fun s =>
    if sumOverflows pre.length then raise .lengthOverflow Mnemonic.sum.code s
    else respond .sum 0#32 (BitVec.ofNat 64 (pre.length + 4)) (pre ++ digestBytes s.digest) s) s

end Sys2Proof.Machine
end

