-- ==== Sys2Proof/Machine/Dispatch.lean ====
section
/-! DEFINITION. One arm per command of the opcode table (30_encoding.md R66). -/

namespace Sys2Proof.Machine

def exec (i : Instr) (s : State) : Host.Outcome State Fault Refusal :=
  match i with
  | .new seed => Sys2Proof.Machine.execNew seed s
  | .reset => Sys2Proof.Machine.execReset s
  | .write data => Sys2Proof.Machine.execWrite data s
  | .sum32 => Sys2Proof.Machine.execSum32 s
  | .sum pre => Sys2Proof.Machine.execSum pre s
  | .size => Sys2Proof.Machine.execSize s
  | .blocksize => Sys2Proof.Machine.execBlocksize s
  | .checksum seed data => Sys2Proof.Machine.execChecksum seed data s

end Sys2Proof.Machine
end

