-- ==== Sys2Proof/Machine/Fetch.lean ====
section
/-! DEFINITION. The command sequencer (10_state.md R29, 20_memory.md R51, R55): what one step takes from the channel and
what it does with it, and what the host does to the channel. Step.lean only calls this. -/

namespace Sys2Proof.Machine

/-- One whole command, already consumed from the channel: it executes, or it is illegal and faults with the opcode as
received (R65, R154). `takeCommand` gives well-formed commands only, so the last case is not met in a step. -/
def runCommand (c : Command) (s : State) : Host.Outcome State Fault Refusal :=
  match decodeCommand c with
  | .ok i => exec i s
  | .error (.illegalCommand op) => raise .illegalCommand op s
  | .error _ => .refused .notACommand

/-- One turn of the sequencer. Power-on reset (R170) comes before anything else (DEDUCED, log entry 6). With no byte presented the
processor is idle and waits (log entry 7). A part of a command is refused (U6, log entry 7). A whole command is consumed, payload and
all, whatever its opcode (R62), and then runs to completion (R51). -/
def sequencer (s : State) : Host.Outcome State Fault Refusal :=
  if s.por then .next (powerOnReset s)
  else if s.input.isEmpty then .next s
  else
    match takeCommand s.input with
    | none => .refused .notACommand
    | some (c, rest) => runCommand c (s.setInput rest)

/-- The host presents a command: its bytes are the next the processor consumes after those it has (R63, R175). A pair that
is not well formed is no command (R62, U6), and the spec says nothing of its bytes on the channel; here they join it all the
same, so bytes past `D.LEN` are read as the next descriptor (DESIGN CHOICE, unsafe, log entry 11). -/
def State.present (s : State) (c : Command) : State := s.setInput (s.input ++ c.bytes)

/-- The host raises the power-on reset input (R170). -/
def State.raisePor (s : State) : State := { s with por := true }

/-- The bytes are the very next the processor consumes, and no reset is asked for. -/
def State.withFirstBytes (s : State) (bs : List Byte) : State := { s with por := false, input := bs ++ s.input }

end Sys2Proof.Machine
end

