-- ==== Sys2Proof/Machine/Step.lean ====
section
/-! DEFINITION. One step of the machine: one turn of the command sequencer (20_memory.md R51, R55). -/

namespace Sys2Proof.Machine

/-- One command executes, or power-on reset is taken, or the processor waits. -/
def step (s : State) : Host.Outcome State Fault Refusal := sequencer s

/-- The state in which the command with descriptor bits `w` and a payload of zeros is the next one presented. The
processor holds no program (R29), so this stands for the host presenting it (log entry 4). -/
def State.withFetchWord (s : State) (nbits w : Nat) : State := s.withFirstBytes (tableWordBytes nbits w)

end Sys2Proof.Machine
end

