-- ==== Sys2Proof/Safety.lean ====
section
/-! DEFINITION. The terms in which claims speak of a run: the steps of a run, the fields of a response, what the hasher
context stands for (10_state.md R32), what of a state can influence a response (R25, R31, R36), and which commands leave
the context alone. -/

namespace Sys2Proof.Machine

/-! ### Runs -/

/-- `k` steps, stopping at the first fault or refusal. -/
def runSteps : Nat → State → Host.Outcome State Fault Refusal
  | 0, s => .next s
  | k + 1, s =>
    match step s with
    | .next t => runSteps k t
    | .fault f => .fault f
    | .refused r => .refused r

/-- A sequence of commands on the byte-wide channel, in presentation order (R63, R182). -/
def channelBytes (cs : List Command) : List Byte := cs.flatMap Command.bytes

/-- A safe run of `k` steps: the machine does not stop, and every response it gives is `OK` (R150). -/
def safeRun (k : Nat) (s : State) : Prop :=
  ∃ t rs, runSteps k s = .next t ∧ t.responses = s.responses ++ rs ∧ ∀ r ∈ rs, r.status = okCode

/-! ### Responses -/

/-- The fields of a response by their bit positions (R71), and its payload. -/
def Response.hasFields (r : Response) (status op : Byte) (val : Word) (cnt : BitVec 64) (rpay : List Byte) : Prop :=
  r.rd.extractLsb' 0 8 = status ∧ r.rd.extractLsb' 8 8 = op ∧ r.rd.extractLsb' 16 16 = 0#16 ∧
    r.rd.extractLsb' 32 32 = val ∧ r.rd.extractLsb' 64 64 = cnt ∧ r.rpay = rpay

/-- The response of a faulting command (R73). -/
def Response.isFault (r : Response) (status op : Byte) : Prop := r.hasFields status op 0#32 0#64 []

/-! ### The hasher context -/

/-- The registers and the buffer hold what absorbing the bytes `B` leaves: items (i) to (v) of R32. -/
structure State.Represents (s : State) (B : List Byte) : Prop where
  /-- (i) `LEN = |B|`. -/
  len_eq : s.len.toNat = B.length
  /-- (ii) `CNT = LEN mod 16`. -/
  cnt_eq : s.cnt.toNat = s.len.toNat % 16
  /-- (iii) `PEND` is the last `CNT` bytes of `B`. -/
  pend_eq : s.pend = B.drop (B.length - s.cnt.toNat)
  /-- (iv) the accumulators are `Blocks(Init(SEED), B[0..LEN-CNT-1])`. -/
  lanes_eq : s.v = (blocks (init s.seed) (B.take (s.len.toNat - s.cnt.toNat))).1
  /-- (v) with `LEN < 16` the accumulators are `Init(SEED)`. -/
  short_eq : s.len.toNat < 16 → s.v = init s.seed

/-- What every step keeps: the buffer's canonical form, and, once constructed, a context that stands for some input. -/
def State.Inv (s : State) : Prop := s.buf.wf ∧ (s.valid = true → ∃ B, s.Represents B)

/-- The input that a context stands for after a command, from what it stood for before (R32, R120 to R122). -/
def absorbed (s : State) (B : List Byte) : Instr → List Byte
  | .new _ => []
  | .reset => []
  | .write data => if s.len.toNat + data.length ≤ 2 ^ 64 - 1 then B ++ data else B
  | .sum32 => B
  | .sum _ => B
  | .size => B
  | .blocksize => B
  | .checksum _ _ => B

/-- All that can influence a response: the flag, and in a constructed hasher the registers and the pending bytes. Cells
at or above `CNT` are left out (R25, R31), and while `VALID = 0` everything but the flag (R36). -/
def State.SameView (s t : State) : Prop :=
  s.valid = t.valid ∧
    (s.valid = true → s.seed = t.seed ∧ s.v = t.v ∧ s.len = t.len ∧ s.cnt = t.cnt ∧ s.pend = t.pend)

/-- Two outcomes that no host can tell apart: both stop for the same reason, or both go on with the same responses, the
same bytes left and states of the same view. -/
def sameOutcome : Host.Outcome State Fault Refusal → Host.Outcome State Fault Refusal → Prop
  | .next s, .next t => s.SameView t ∧ s.responses = t.responses ∧ s.input = t.input ∧ s.por = t.por
  | .fault f, .fault g => f = g
  | .refused f, .refused g => f = g
  | _, _ => False

/-! ### Sequences of commands -/

/-- The bytes that a command of a streaming sequence adds to the input: those of a `WRITE`, none otherwise (R133). -/
def chunk (c : Command) : List Byte :=
  match decodeCommand c with
  | .ok (.write data) => data
  | _ => []

/-- A command that may stand between `NEW` and `SUM32` in a streaming sequence: anything but `NEW` and `RESET`, faulting
commands included (R133). -/
def continues (c : Command) : Prop :=
  c.wellFormed = true ∧ (∀ seed, decodeCommand c ≠ .ok (.new seed)) ∧ decodeCommand c ≠ .ok .reset

/-- A command that, with the response it got, absorbed nothing and restarted nothing: no `NEW`, no `RESET`, no successful
non-empty `WRITE` (R134). -/
def quiet (c : Command) (r : Response) : Prop :=
  c.wellFormed = true ∧
    match decodeCommand c with
    | .ok (.new _) => False
    | .ok .reset => False
    | .ok (.write data) => data = [] ∨ r.status ≠ okCode
    | _ => True

end Sys2Proof.Machine
end

