-- ==== Sys2Proof/Certificates/Slice0/Obligations.lean ====
section
/-! DEFINITION. The statements for the provers. Status codes, opcodes and bit positions are written out from the tables of
30_encoding.md and 60_exceptions.md, not taken from the model's own operations. -/

open Sys2Proof Sys2Proof.Machine

/-! ### Encoding and decoding -/

/-- R65, R66, R63: decoding the bytes of a well-formed command gives it back, with every operand, and leaves what follows. -/
def Obligations.DecodeEncodeRoundTrip : Prop :=
  ∀ (i : Instr) (rest : List Byte), i.wellFormed = true → decode (encode i ++ rest) = .ok (i, rest)

/-- A descriptor and payload that decode to a command are that command's own encoding, so no command has two encodings, and
only well-formed commands are decoded. -/
def Obligations.DecodedPairIsItsEncoding : Prop :=
  ∀ (c : Command) (i : Instr), decodeCommand c = .ok i → c = encodeCommand i ∧ i.wellFormed = true

/-- R65: at most one row of the opcode table matches; a matching row's command is decoded with the operands of R64; with no
matching row the descriptor is illegal. -/
def Obligations.DecodingFollowsOpcodeTable : Prop :=
  (∀ (d : Desc) (r q : Row), r ∈ opcodeTable → q ∈ opcodeTable → d &&& r.mask = r.pat → d &&& q.mask = q.pat → r = q) ∧
  (∀ (c : Command) (r : Row), c.wellFormed = true → r ∈ opcodeTable → c.desc &&& r.mask = r.pat →
    decodeCommand c = .ok (operands r.op c.desc c.pay)) ∧
  (∀ c : Command, c.wellFormed = true → (∀ r ∈ opcodeTable, c.desc &&& r.mask ≠ r.pat) →
    decodeCommand c = .error (.illegalCommand (c.desc.extractLsb' 0 8)))

/-- Words written out from R61, R63 and R66 decode to the commands they stand for (95_test_vectors.md 2.12). -/
def Obligations.SampleWordsDecode : Prop :=
  decode [0x01#8, 0, 0, 0, 0xEF#8, 0xBE#8, 0xAD#8, 0xDE#8, 0, 0, 0, 0, 0, 0, 0, 0] =
      .ok (.new 0xDEADBEEF#32, []) ∧
    decode [0x02#8, 0, 0, 0, 0, 0, 0, 0, 0, 0, 0, 0, 0, 0, 0, 0] = .ok (.reset, []) ∧
    decode [0x03#8, 0, 0, 0, 0, 0, 0, 0, 3, 0, 0, 0, 0, 0, 0, 0, 0x61#8, 0x62#8, 0x63#8] =
      .ok (.write [0x61#8, 0x62#8, 0x63#8], []) ∧
    decode [0x05#8, 0, 0, 0, 0, 0, 0, 0, 2, 0, 0, 0, 0, 0, 0, 0, 0xAA#8, 0xBB#8, 0x04#8] =
      .ok (.sum [0xAA#8, 0xBB#8], [0x04#8]) ∧
    decode [0x08#8, 0, 0, 0, 0xFF#8, 0xFF#8, 0xFF#8, 0xFF#8, 2, 0, 0, 0, 0, 0, 0, 0, 0x00#8, 0x01#8] =
      .ok (.checksum 0xFFFFFFFF#32 [0x00#8, 0x01#8], [])

/-! ### The sequencer -/

/-- A step runs the decoded command: when the channel begins with a whole legal command, the step is `exec` of it in the
state whose channel has moved past its bytes. -/
def Obligations.StepRunsDecodedCommand : Prop :=
  ∀ (s : State) (i : Instr) (rest : List Byte), s.por = false → decode s.input = .ok (i, rest) →
    i.wellFormed = true ∧ step s = exec i { s with input := rest }

/-- R154: a well-formed command whose opcode is reserved, or with `RSV` not zero, or with `SEED` or `LEN` not zero where
its opcode has none, faults with `IllegalCommand`, whatever the registers hold; no other command does. Nothing but the
channel and the responses changes. -/
def Obligations.IllegalCommandExactly : Prop :=
  ∀ (s : State) (c : Command) (rest : List Byte), s.por = false → c.wellFormed = true → s.input = c.bytes ++ rest →
    let op := c.desc.extractLsb' 0 8
    let illegal :=
      (op = 0x00#8 ∨ 0x09#8 ≤ op) ∨ c.desc.extractLsb' 8 24 ≠ 0#24 ∨
      (c.desc.extractLsb' 32 32 ≠ 0#32 ∧ op ≠ 0x01#8 ∧ op ≠ 0x08#8) ∨
      (c.desc.extractLsb' 64 64 ≠ 0#64 ∧
        (op = 0x01#8 ∨ op = 0x02#8 ∨ op = 0x04#8 ∨ op = 0x06#8 ∨ op = 0x07#8))
    (illegal → ∃ r : Response, r.isFault 0x01#8 op ∧
      step s = .next { s with input := rest, responses := s.responses ++ [r] }) ∧
    (¬ illegal → ∃ t r, step s = .next t ∧ t.responses = s.responses ++ [r] ∧ r.rd.extractLsb' 0 8 ≠ 0x01#8)

/-- R62, R71, R73, R74, R78: every well-formed command, legal or not, is consumed with exactly its payload and gets exactly
one response: `RD[31:16]` zero, the opcode as received, a status of 0 to 3, nothing but the status and the opcode on a
fault, and a response payload only from a successful `SUM`, of the length `RD.CNT` says. -/
def Obligations.EveryCommandAnswersOnce : Prop :=
  ∀ (s : State) (c : Command) (rest : List Byte), s.por = false → c.wellFormed = true → s.input = c.bytes ++ rest →
    ∃ t r, step s = .next t ∧ t.input = rest ∧ t.por = false ∧ t.responses = s.responses ++ [r] ∧
      r.rd.extractLsb' 16 16 = 0#16 ∧ r.rd.extractLsb' 8 8 = c.desc.extractLsb' 0 8 ∧ r.rd.extractLsb' 0 8 ≤ 0x03#8 ∧
      (r.rd.extractLsb' 0 8 ≠ 0x00#8 → r.rd.extractLsb' 32 32 = 0#32 ∧ r.rd.extractLsb' 64 64 = 0#64) ∧
      (r.rpay ≠ [] → r.rd.extractLsb' 0 8 = 0x00#8 ∧ c.desc.extractLsb' 0 8 = 0x05#8) ∧
      (r.rd.extractLsb' 0 8 = 0x00#8 → c.desc.extractLsb' 0 8 = 0x05#8 →
        r.rpay.length = (r.rd.extractLsb' 64 64).toNat)

/-- R155, R156, R157: the status of a legal command, by the priority of the faults: `NotConstructed` for the four commands
that read the context while `VALID = 0`, else `LengthOverflow` for a `WRITE` or a `SUM` past its limit, else `OK`. With
`IllegalCommandExactly` this is the whole priority order. -/
def Obligations.LegalCommandStatus : Prop :=
  ∀ (i : Instr) (s : State), ∃ t r, exec i s = .next t ∧ t.responses = s.responses ++ [r] ∧
    r.rd.extractLsb' 0 8 =
      if s.valid = false ∧ (i.mnemonic = .reset ∨ i.mnemonic = .write ∨ i.mnemonic = .sum32 ∨ i.mnemonic = .sum) then
        0x02#8
      else if (i.mnemonic = .write ∧ s.len.toNat + i.payload.length > 2 ^ 64 - 1) ∨
          (i.mnemonic = .sum ∧ i.payload.length > 2 ^ 64 - 5) then
        0x03#8
      else 0x00#8

/-- R152, R153: a command that gets a non-zero status leaves every register, the flag and every buffer cell as they were;
only the channel has moved past its bytes and the response is there. -/
def Obligations.FaultsArePrecise : Prop :=
  ∀ (s t : State) (r : Response), s.por = false → step s = .next t → t.responses = s.responses ++ [r] →
    r.rd.extractLsb' 0 8 ≠ 0x00#8 →
    t = { s with input := t.input, responses := s.responses ++ [r] } ∧ r.rpay = []

/-- R53, R152: no step ends in a fault of the model, from any state: no step stores to `BUF` at an index of 16 or more, and
the hardware's own faults are responses. (A step over part of a command still stops, refused: `PowerOnResetAndWaiting`.) -/
def Obligations.NoStepFaults : Prop := ∀ (s : State) (f : Fault), step s ≠ .fault f

/-- The channel's other three cases. Power-on reset clears `VALID` and gives no response (R170); that it takes precedence
over a waiting command, drops the bytes waiting, keeps the responses received and that its input falls back is the model's
(DEDUCED, log entry 6). With nothing presented the state stays, and a part of a command is refused as in U6 (DESIGN CHOICE,
log entry 7). -/
def Obligations.PowerOnResetAndWaiting : Prop :=
  (∀ s : State, s.por = true → ∃ t, step s = .next t ∧ t.valid = false ∧ t.por = false ∧ t.input = [] ∧
    t.responses = s.responses) ∧
  (∀ s : State, s.por = false → s.input = [] → step s = .next s) ∧
  (∀ (s : State) (c : Command) (n : Nat), s.por = false → c.wellFormed = true → 0 < n → n < c.bytes.length →
    s.input = c.bytes.take n → step s = .refused .notACommand)

/-! ### The commands: results and frames -/

/-- R120, R37: `NEW` is legal in every state and leaves the initialized state for its seed; `BUF` is not written. It is
illegal with `RSV` or `LEN` not zero. -/
def Obligations.NewConstructsHasher : Prop :=
  (∀ (seed : Word) (s : State), ∃ r : Response, r.hasFields 0x00#8 0x01#8 0#32 0#64 [] ∧
    exec (.new seed) s = .next { s with
      valid := true, seed := seed,
      v := ⟨seed + Config.P1 + Config.P2, seed + Config.P2, seed, seed - Config.P1⟩,
      len := 0#64, cnt := 0#4, responses := s.responses ++ [r] }) ∧
  (∀ c : Command, c.wellFormed = true → c.desc.extractLsb' 0 8 = 0x01#8 →
    decodeCommand c = if c.desc.extractLsb' 8 24 = 0#24 ∧ c.desc.extractLsb' 64 64 = 0#64 then
      .ok (.new (c.desc.extractLsb' 32 32)) else .error (.illegalCommand 0x01#8))

/-- R121: `RESET` gives the accumulators, length and count of a fresh hasher for the stored seed and writes nothing else;
while `VALID = 0` it faults. It is illegal with any other field not zero. -/
def Obligations.ResetRestartsHasher : Prop :=
  (∀ s : State, s.valid = true → ∃ r : Response, r.hasFields 0x00#8 0x02#8 0#32 0#64 [] ∧
    exec .reset s = .next { s with
      v := ⟨s.seed + Config.P1 + Config.P2, s.seed + Config.P2, s.seed, s.seed - Config.P1⟩,
      len := 0#64, cnt := 0#4, responses := s.responses ++ [r] }) ∧
  (∀ s : State, s.valid = false → ∃ r : Response, r.isFault 0x02#8 0x02#8 ∧
    exec .reset s = .next { s with responses := s.responses ++ [r] }) ∧
  (∀ c : Command, c.wellFormed = true → c.desc.extractLsb' 0 8 = 0x02#8 →
    decodeCommand c = if c.desc.extractLsb' 8 24 = 0#24 ∧ c.desc.extractLsb' 32 32 = 0#32 ∧
      c.desc.extractLsb' 64 64 = 0#64 then .ok .reset else .error (.illegalCommand 0x02#8))

/-- R122, R156: what a `WRITE` is refused for: `VALID = 0`, or a length past 64 bits; then nothing is written, not even
`LEN`. It is illegal with `RSV` or `SEED` not zero. -/
def Obligations.WriteRefusals : Prop :=
  (∀ (data : List Byte) (s : State), s.valid = false → ∃ r : Response, r.isFault 0x02#8 0x03#8 ∧
    exec (.write data) s = .next { s with responses := s.responses ++ [r] }) ∧
  (∀ (data : List Byte) (s : State), s.valid = true → s.len.toNat + data.length > 2 ^ 64 - 1 →
    ∃ r : Response, r.isFault 0x03#8 0x03#8 ∧
      exec (.write data) s = .next { s with responses := s.responses ++ [r] }) ∧
  (∀ c : Command, c.wellFormed = true → c.desc.extractLsb' 0 8 = 0x03#8 →
    decodeCommand c = if c.desc.extractLsb' 8 24 = 0#24 ∧ c.desc.extractLsb' 32 32 = 0#32 then .ok (.write c.pay)
      else .error (.illegalCommand 0x03#8))

/-- R123: the short path, taken when `L <= 15 - CNT`. The payload is appended to the pending bytes, `LEN` grows by `L`, the
accumulators and every cell outside `CNT .. CNT+L-1` stay. That cells at or above `CNT+L` keep their byte is the model's
choice (DESIGN CHOICE, log entry 2): R25 and U7 give them no value. -/
def Obligations.WriteShortPathAppends : Prop :=
  ∀ (data : List Byte) (s : State), s.valid = true → s.buf.wf → s.len.toNat + data.length ≤ 2 ^ 64 - 1 →
    data.length ≤ 15 - s.cnt.toNat →
    ∃ (t : State) (m : Memory) (r : Response), r.hasFields 0x00#8 0x03#8 0#32 (BitVec.ofNat 64 data.length) [] ∧
      exec (.write data) s = .next t ∧
      t = { s with
        len := s.len + BitVec.ofNat 64 data.length, cnt := BitVec.ofNat 4 (s.cnt.toNat + data.length),
        buf := m, responses := s.responses ++ [r] } ∧
      t.len.toNat = s.len.toNat + data.length ∧ t.cnt.toNat = s.cnt.toNat + data.length ∧
      t.pend = s.pend ++ data ∧
      (∀ a, a < s.cnt.toNat ∨ s.cnt.toNat + data.length ≤ a → t.buf.read a = s.buf.read a)

/-- R124: the long path, taken when `CNT + L >= 16`. The first `f = 16 - CNT` payload bytes complete the pending bytes to
one block; the next `16 k` bytes are processed in place; the last `r` go to the buffer. The cells `CNT..15` hold the head
except where the remainder, stored at 0, covers them; every other cell stays. What this says of cells at or above the new
`CNT` is the model's choice (DESIGN CHOICE, log entry 2: a cell that is no longer valid keeps its byte): R25 gives them no
value, and R124 lets a model skip the copy of the head when `CNT = 0`. -/
def Obligations.WriteLongPathProcessesBlocks : Prop :=
  ∀ (data : List Byte) (s : State), s.valid = true → s.buf.wf → s.len.toNat + data.length ≤ 2 ^ 64 - 1 →
    16 ≤ s.cnt.toNat + data.length →
    let f := 16 - s.cnt.toNat
    let k := (data.length - f) / 16
    let rem := (data.length - f) % 16
    ∃ (t : State) (m : Memory) (r : Response), r.hasFields 0x00#8 0x03#8 0#32 (BitVec.ofNat 64 data.length) [] ∧
      exec (.write data) s = .next t ∧
      t = { s with
        len := s.len + BitVec.ofNat 64 data.length, cnt := BitVec.ofNat 4 rem,
        v := (blocks (blockStep s.v (s.pend ++ data.take f)) ((data.drop f).take (16 * k))).1,
        buf := m, responses := s.responses ++ [r] } ∧
      t.len.toNat = s.len.toNat + data.length ∧ t.cnt.toNat = (s.cnt.toNat + data.length) % 16 ∧
      t.pend = data.drop (f + 16 * k) ∧
      (∀ a, t.buf.read a =
        if a < rem then data.getD (f + 16 * k + a) 0#8
        else if s.cnt.toNat ≤ a ∧ a < 16 then data.getD (a - s.cnt.toNat) 0#8
        else s.buf.read a)

/-- R127, R128: `SUM32` returns the digest combination of the registers and the pending bytes and writes nothing; while
`VALID = 0` it faults. It is illegal with any other field not zero. -/
def Obligations.Sum32ReturnsDigest : Prop :=
  (∀ s : State, s.valid = true → ∃ r : Response,
    r.hasFields 0x00#8 0x04#8 (combine s.seed s.v s.len.toNat s.pend) 0#64 [] ∧
    exec .sum32 s = .next { s with responses := s.responses ++ [r] }) ∧
  (∀ s : State, s.valid = false → ∃ r : Response, r.isFault 0x02#8 0x04#8 ∧
    exec .sum32 s = .next { s with responses := s.responses ++ [r] }) ∧
  (∀ c : Command, c.wellFormed = true → c.desc.extractLsb' 0 8 = 0x04#8 →
    decodeCommand c = if c.desc.extractLsb' 8 24 = 0#24 ∧ c.desc.extractLsb' 32 32 = 0#32 ∧
      c.desc.extractLsb' 64 64 = 0#64 then .ok .sum32 else .error (.illegalCommand 0x04#8))

/-- R129, R130, R131: `SUM` returns the prefix and then the four bytes of the digest `SUM32` would return, most significant
first, and writes nothing; a prefix of more than `2^64 - 5` bytes, or `VALID = 0`, is a fault. It is illegal with `RSV` or
`SEED` not zero. -/
def Obligations.SumReturnsPrefixAndDigest : Prop :=
  (∀ (pre : List Byte) (s : State), s.valid = true → pre.length ≤ 2 ^ 64 - 5 →
    let d := combine s.seed s.v s.len.toNat s.pend
    ∃ r : Response, r.hasFields 0x00#8 0x05#8 0#32 (BitVec.ofNat 64 (pre.length + 4))
        (pre ++ [d.extractLsb' 24 8, d.extractLsb' 16 8, d.extractLsb' 8 8, d.extractLsb' 0 8]) ∧
      exec (.sum pre) s = .next { s with responses := s.responses ++ [r] }) ∧
  (∀ (pre : List Byte) (s : State), s.valid = true → pre.length > 2 ^ 64 - 5 → ∃ r : Response,
    r.isFault 0x03#8 0x05#8 ∧ exec (.sum pre) s = .next { s with responses := s.responses ++ [r] }) ∧
  (∀ (pre : List Byte) (s : State), s.valid = false → ∃ r : Response, r.isFault 0x02#8 0x05#8 ∧
    exec (.sum pre) s = .next { s with responses := s.responses ++ [r] }) ∧
  (∀ c : Command, c.wellFormed = true → c.desc.extractLsb' 0 8 = 0x05#8 →
    decodeCommand c = if c.desc.extractLsb' 8 24 = 0#24 ∧ c.desc.extractLsb' 32 32 = 0#32 then .ok (.sum c.pay)
      else .error (.illegalCommand 0x05#8))

/-- R140, R141: `CHECKSUM` returns the hash of its payload under its seed, in every state, and writes nothing. It is illegal
with `RSV` not zero. -/
def Obligations.ChecksumHashesPayload : Prop :=
  (∀ (seed : Word) (data : List Byte) (s : State), ∃ r : Response,
    r.hasFields 0x00#8 0x08#8
      (combine seed (blocks (init seed) data).1 data.length (data.drop (16 * (data.length / 16)))) 0#64 [] ∧
    exec (.checksum seed data) s = .next { s with responses := s.responses ++ [r] }) ∧
  (∀ c : Command, c.wellFormed = true → c.desc.extractLsb' 0 8 = 0x08#8 →
    decodeCommand c = if c.desc.extractLsb' 8 24 = 0#24 then .ok (.checksum (c.desc.extractLsb' 32 32) c.pay)
      else .error (.illegalCommand 0x08#8))

/-- R144, R145: `SIZE` and `BLOCKSIZE` return 4 in every state and write nothing. Each is illegal with any other field not
zero. -/
def Obligations.SizeAndBlocksizeReturnFour : Prop :=
  (∀ s : State, ∃ r : Response, r.hasFields 0x00#8 0x06#8 4#32 0#64 [] ∧
    exec .size s = .next { s with responses := s.responses ++ [r] }) ∧
  (∀ s : State, ∃ r : Response, r.hasFields 0x00#8 0x07#8 4#32 0#64 [] ∧
    exec .blocksize s = .next { s with responses := s.responses ++ [r] }) ∧
  (∀ c : Command, c.wellFormed = true → c.desc.extractLsb' 0 8 = 0x06#8 →
    decodeCommand c = if c.desc.extractLsb' 8 24 = 0#24 ∧ c.desc.extractLsb' 32 32 = 0#32 ∧
      c.desc.extractLsb' 64 64 = 0#64 then .ok .size else .error (.illegalCommand 0x06#8)) ∧
  (∀ c : Command, c.wellFormed = true → c.desc.extractLsb' 0 8 = 0x07#8 →
    decodeCommand c = if c.desc.extractLsb' 8 24 = 0#24 ∧ c.desc.extractLsb' 32 32 = 0#32 ∧
      c.desc.extractLsb' 64 64 = 0#64 then .ok .blocksize else .error (.illegalCommand 0x07#8))

/-- R20 to R26, the "written by" column: `VALID` is set by every `NEW` and cleared by no command; `SEED` is written by `NEW`
only; the accumulators, `LEN` and `CNT` by `NEW`, `RESET` and `WRITE` only; `BUF` by `WRITE` only. -/
def Obligations.RegistersWrittenOnlyByTheirCommands : Prop :=
  ∀ (i : Instr) (s t : State), exec i s = .next t →
    (t.valid = true ↔ s.valid = true ∨ i.mnemonic = .new) ∧
    (i.mnemonic ≠ .new → t.seed = s.seed) ∧
    (i.mnemonic ≠ .new → i.mnemonic ≠ .reset → i.mnemonic ≠ .write →
      t.v = s.v ∧ t.len = s.len ∧ t.cnt = s.cnt) ∧
    (i.mnemonic ≠ .write → t.buf = s.buf)

/-! ### The datapath -/

/-- The constants are the default values of R8, which the spec marks as general knowledge (PRESUMED, log entry 3); with them
the model gives the source's five known-answer vectors (95_test_vectors.md S1 to S5). -/
def Obligations.ConstantsGiveKnownAnswers : Prop :=
  Config.P1 = 2654435761#32 ∧ Config.P2 = 2246822519#32 ∧ Config.P3 = 3266489917#32 ∧ Config.P4 = 668265263#32 ∧
    Config.P5 = 374761393#32 ∧
    hash32 1#32 [] = 0x0B2CB792#32 ∧ hash32 1#32 [0x61#8] = 0xF514706F#32 ∧
    hash32 1#32 [0x61#8, 0x62#8, 0x63#8] = 0xAA3DA8FF#32 ∧
    hash32 1#32 [0x61#8, 0x62#8, 0x63#8, 0x64#8, 0x65#8, 0x66#8, 0x67#8, 0x68#8, 0x69#8, 0x6A#8] = 0x5BB3B6B8#32 ∧
    hash32 1#32 [0x4E#8, 0x65#8, 0x70#8, 0x61#8, 0x6C#8, 0x20#8, 0x70#8, 0x72#8, 0x65#8, 0x6D#8, 0x69#8, 0x65#8, 0x72#8,
      0x20#8, 0x77#8, 0x6F#8, 0x6E#8, 0x27#8, 0x74#8, 0x20#8, 0x72#8, 0x65#8, 0x73#8, 0x69#8, 0x67#8, 0x6E#8, 0x2E#8] =
      0x4A9C59C8#32

/-- R93, R94, R101, R102, R105, R107: the units, as integer arithmetic modulo `2^32` over the constants `P1` to `P5`,
with `rotl32(a, r) = ((a << r) mod 2^32) | (a >> (32 - r))`. -/
def Obligations.DatapathIsArithmeticModulo2Pow32 : Prop :=
  let M := 2 ^ 32
  let p1 := Config.P1.toNat
  let p2 := Config.P2.toNat
  let p3 := Config.P3.toNat
  let p4 := Config.P4.toNat
  let p5 := Config.P5.toNat
  let rotl := fun (a r : Nat) => (a * 2 ^ r) % M ||| a / 2 ^ (32 - r)
  (∀ seed : Word,
    (init seed).v1.toNat = (seed.toNat + p1 + p2) % M ∧ (init seed).v2.toNat = (seed.toNat + p2) % M ∧
    (init seed).v3.toNat = seed.toNat ∧ (init seed).v4.toNat = (seed.toNat + M - p1) % M) ∧
  (∀ v x : Word, (laneRound v x).toNat = rotl ((v.toNat + x.toNat * p2) % M) 13 * p1 % M) ∧
  (∀ h w : Word, (tailWord h w).toNat = rotl ((h.toNat + w.toNat * p3) % M) 17 * p4 % M) ∧
  (∀ (h : Word) (b : Byte), (tailByte h b).toNat = rotl ((h.toNat + b.toNat * p5) % M) 11 * p1 % M) ∧
  (∀ v : Lanes, (merge v).toNat =
    (rotl v.v1.toNat 1 + rotl v.v2.toNat 7 + rotl v.v3.toNat 12 + rotl v.v4.toNat 18) % M) ∧
  (∀ h : Word,
    let h1 := h.toNat ^^^ h.toNat / 2 ^ 15
    let h2 := h1 * p2 % M
    let h3 := h2 ^^^ h2 / 2 ^ 13
    let h4 := h3 * p3 % M
    (fmix h).toNat = h4 ^^^ h4 / 2 ^ 16)

/-- R92: `rotl32(a, r)` moves bit `i` to bit `(i + r) mod 32`, for every rotation amount in `1..31`. -/
def Obligations.RotationMovesEveryBit : Prop :=
  ∀ (a : Word) (r i : Nat), 0 < r → r < 32 → i < 32 → (rotl32 a r).getLsbD ((i + r) % 32) = a.getLsbD i

/-- R44, R45, R46: a word is little-endian, at any offset; a byte is zero-extended; a digest is emitted most significant
byte first, so its bytes read as a big-endian number are the digest. -/
def Obligations.ByteOrders : Prop :=
  (∀ (bs : List Byte) (a : Nat), a + 4 ≤ bs.length →
    (le32At bs a).toNat = (bs.getD a 0#8).toNat + 2 ^ 8 * (bs.getD (a + 1) 0#8).toNat +
      2 ^ 16 * (bs.getD (a + 2) 0#8).toNat + 2 ^ 24 * (bs.getD (a + 3) 0#8).toNat) ∧
  (∀ b : Byte, (byteWord b).toNat = b.toNat) ∧
  (∀ d : Word, (digestBytes d).foldl (fun n b => 256 * n + b.toNat) 0 = d.toNat ∧ (digestBytes d).length = 4)

/-- R98: over a range of `m` bytes the loop runs exactly `m div 16` times, over consecutive 16-byte groups from the start of
the range, and stops at the offset `16 * (m div 16)`, with `m mod 16` bytes left. -/
def Obligations.BlocksRunsOncePerGroup : Prop :=
  ∀ (v : Lanes) (bs : List Byte),
    blocks v bs =
      ((List.range (bs.length / 16)).foldl (fun w j => blockStep w ((bs.drop (16 * j)).take 16)) v,
        16 * (bs.length / 16)) ∧
    (bs.drop (blocks v bs).2).length = bs.length % 16

/-- R99: with `|A|` a multiple of 16, `Blocks(v, A ++ B)` gives the accumulators of `Blocks(Blocks(v, A).v, B)`. -/
def Obligations.BlocksCompose : Prop :=
  ∀ (v : Lanes) (as bs : List Byte), as.length % 16 = 0 →
    (blocks v (as ++ bs)).1 = (blocks (blocks v as).1 bs).1

/-- R95, R104: word `k` of the block bytes of an input goes to lane `(k mod 4) + 1` and to no other: each lane is the fold of
`Round` over its own accumulator and its own words. -/
def Obligations.LanesAreIndependent : Prop :=
  ∀ (v : Lanes) (bs : List Byte),
    let lane := fun (a : Word) (l : Nat) =>
      (List.range (bs.length / 16)).foldl (fun w j => laneRound w (le32At bs (4 * (4 * j + l)))) a
    (blocks v bs).1 = ⟨lane v.v1 0, lane v.v2 1, lane v.v3 2, lane v.v4 3⟩

/-- R103: over `m` bytes the tail mixer takes `m div 4` words in increasing offset order and then the last `m mod 4` bytes. -/
def Obligations.TailTakesWordsThenBytes : Prop :=
  ∀ (h : Word) (bs : List Byte),
    tail h bs = (bs.drop (4 * (bs.length / 4))).foldl tailByte
      ((List.range (bs.length / 4)).foldl (fun w j => tailWord w (le32At bs (4 * j))) h)

/-- R108: below 16 bytes in all the accumulators are not read, from 16 on the seed is not; the test is on the whole length,
so a length of `2^32` or more takes the second path although its low half may be below 16. -/
def Obligations.StartValueBySixteenBytes : Prop :=
  (∀ (seed : Word) (v w : Lanes) (n : Nat) (bs : List Byte), n < 16 →
    combine seed v n bs = combine seed w n bs ∧
    combine seed v n bs = fmix (tail (seed + Config.P5 + BitVec.ofNat 32 n) bs)) ∧
  (∀ (seed seed' : Word) (v : Lanes) (n : Nat) (bs : List Byte), 16 ≤ n →
    combine seed v n bs = combine seed' v n bs ∧
    combine seed v n bs = fmix (tail (merge v + BitVec.ofNat 32 n) bs))

/-! ### The whole machine -/

/-- What every step keeps, from any state that has it: the buffer's canonical form, and a constructed context that stands
for some input (R32). -/
def Obligations.StepKeepsInvariant : Prop := ∀ s t : State, s.Inv → step s = .next t → t.Inv

/-- The state after power-on reset has the invariant, and no hasher is constructed in it (R36). -/
def Obligations.ResetMeetsInvariant : Prop := State.reset.Inv ∧ State.reset.valid = false

/-- R32: a context that stands for the input `B` stands, after a command, for what the command makes of `B`: nothing after
`NEW` (from any context) and `RESET`, `B` and the payload after an accepted `WRITE`, `B` after any other command and after
a refused `WRITE`. -/
def Obligations.ContextStandsForInput : Prop :=
  (∀ (seed : Word) (s t : State), exec (.new seed) s = .next t → t.valid = true ∧ t.Represents []) ∧
  (∀ (i : Instr) (s t : State) (B : List Byte), s.valid = true → s.buf.wf → s.Represents B → exec i s = .next t →
    t.Represents (absorbed s B i))

/-- R133: streaming equivalence. A `NEW s`, or a `RESET` of a hasher whose stored seed is `s`, then any commands but `NEW`
and `RESET`, faulting ones included, whose `WRITE` payloads have fewer than `2^64` bytes in all, then `SUM32`: the run goes
through, and its last response carries `Hash32(s, c1 ++ ... ++ ck)`, which is also what `CHECKSUM s, c1 ++ ... ++ ck`
returns, in any state. -/
def Obligations.StreamingEqualsOneShot : Prop :=
  ∀ (s : State) (first : Instr) (seed : Word) (cs : List Command) (rest : List Byte),
    s.por = false → s.buf.wf →
    (first = .new seed ∨ (first = .reset ∧ s.valid = true ∧ s.seed = seed)) →
    (∀ c ∈ cs, continues c) → (cs.flatMap chunk).length < 2 ^ 64 →
    s.input = encode first ++ channelBytes cs ++ encode .sum32 ++ rest →
    ∃ t rs r, runSteps (cs.length + 2) s = .next t ∧ t.input = rest ∧ t.responses = s.responses ++ rs ++ [r] ∧
      rs.length = cs.length + 1 ∧ r.hasFields 0x00#8 0x04#8 (hash32 seed (cs.flatMap chunk)) 0#64 [] ∧
      ∀ u : State, ∃ q : Response, q.hasFields 0x00#8 0x08#8 (r.rd.extractLsb' 32 32) 0#64 [] ∧
        exec (.checksum seed (cs.flatMap chunk)) u = .next { u with responses := u.responses ++ [q] }

/-- R142, R77: `CHECKSUM s, b` returns the value that the last response of the pseudo-command `HASH s, b`, that is of `NEW s;
WRITE b; SUM32`, carries; and `DIGEST` after it returns the same digest, most significant byte first. -/
def Obligations.ChecksumAgreesWithHash : Prop :=
  ∀ (s : State) (seed : Word) (data rest : List Byte), s.por = false → s.buf.wf → data.length < 2 ^ 64 →
    s.input = (Instr.pseudoHash seed data ++ Instr.pseudoDigest ++ [Instr.checksum seed data]).flatMap encode ++ rest →
    ∃ t r1 r2 r3 r4 r5, runSteps 5 s = .next t ∧ t.input = rest ∧ t.responses = s.responses ++ [r1, r2, r3, r4, r5] ∧
      r3.hasFields 0x00#8 0x04#8 (r5.rd.extractLsb' 32 32) 0#64 [] ∧ r5.rd.extractLsb' 0 8 = 0x00#8 ∧
      r4.rpay.foldl (fun n b => 256 * n + b.toNat) 0 = (r5.rd.extractLsb' 32 32).toNat ∧ r4.rpay.length = 4

/-- R25, R31, R36: states of the same view cannot be told apart, for any number of steps: neither the buffer cells at or
above `CNT`, nor anything but `VALID` while `VALID = 0`, influences a response. No statement about the values that power-on
reset leaves (log entries 1 and 2) is needed for this. -/
def Obligations.HiddenStateIsUnobservable : Prop :=
  ∀ (k : Nat) (s t : State), s.buf.wf → t.buf.wf → s.SameView t → s.responses = t.responses → s.input = t.input →
    s.por = t.por → sameOutcome (runSteps k s) (runSteps k t)

/-- R135: after `RESET`, any bytes on the channel get the responses that the same bytes get after a fresh `NEW` with the same
seed, in any state whatever the `NEW` came. -/
def Obligations.ResetEqualsFreshNew : Prop :=
  ∀ (s u s' u' : State) (bs : List Byte) (k : Nat), s.valid = true → s.buf.wf → u.buf.wf →
    exec .reset s = .next s' → exec (.new s.seed) u = .next u' →
    sameOutcome (runSteps k { s' with por := false, input := bs, responses := [] })
      (runSteps k { u' with por := false, input := bs, responses := [] })

/-- R134, R128: two `SUM32` commands with no `NEW`, `RESET` or successful non-empty `WRITE` between them return the same
value; the commands between them are told by the responses they got. -/
def Obligations.IdempotentObservation : Prop :=
  ∀ (s t : State) (cs : List Command) (rest : List Byte) (r r' : Response) (rs : List Response), s.por = false →
    s.input = encode .sum32 ++ channelBytes cs ++ encode .sum32 ++ rest → rs.length = cs.length →
    runSteps (cs.length + 2) s = .next t → t.responses = s.responses ++ [r] ++ rs ++ [r'] →
    (∀ p ∈ cs.zip rs, quiet p.1 p.2) → r.rd = r'.rd

/-- R150, R23, R130: a sequence of legal commands that starts with `NEW` and whose `WRITE`s carry fewer than `2^64` bytes in
all, and no `SUM` a prefix past its limit, is a safe run: every status is `OK`. -/
def Obligations.LegalSequencesNeverFault : Prop :=
  ∀ (s : State) (seed : Word) (is : List Instr) (rest : List Byte), s.por = false →
    (∀ i ∈ is, i.wellFormed = true ∧ (i.mnemonic = .sum → i.payload.length ≤ 2 ^ 64 - 5)) →
    (is.flatMap fun i => if i.mnemonic = .write then i.payload else []).length < 2 ^ 64 →
    s.input = (Instr.new seed :: is).flatMap encode ++ rest → safeRun (is.length + 1) s
end

