-- ==== Sys2Proof/Laws/Datapath.lean ====
section
/-! SUPPORT. The block loop by its two cases, free of its fuel and of its starting offset, and the start value. -/

namespace Sys2Proof.Machine

section Init
variable (seed : Word)
theorem init_eq : init seed = ⟨seed + Config.P1 + Config.P2, seed + Config.P2, seed, seed - Config.P1⟩ := (rfl)
@[simp] theorem init_v1 : (init seed).v1 = seed + Config.P1 + Config.P2 := (rfl)
@[simp] theorem init_v2 : (init seed).v2 = seed + Config.P2 := (rfl)
@[simp] theorem init_v3 : (init seed).v3 = seed := (rfl)
@[simp] theorem init_v4 : (init seed).v4 = seed - Config.P1 := (rfl)
end Init

/-- The offset is only carried along. -/
theorem blocksLoop_offset (fuel : Nat) (v : Lanes) (bs : List Byte) (p : Nat) :
    blocksLoop fuel v bs p = ((blocksLoop fuel v bs 0).1, p + (blocksLoop fuel v bs 0).2) := by
  induction fuel generalizing v bs p with
  | zero => simp [blocksLoop]
  | succ fuel ih =>
    simp only [blocksLoop]
    split
    · rw [ih _ _ (p + Config.block), ih _ _ (0 + Config.block)]; simp [Nat.add_assoc]
    · simp

/-- Any two amounts of fuel that cover the bytes give the same. -/
theorem blocksLoop_fuel (f g : Nat) (v : Lanes) (bs : List Byte) (p : Nat) (hf : bs.length ≤ f) (hg : bs.length ≤ g) :
    blocksLoop f v bs p = blocksLoop g v bs p := by
  induction f generalizing g v bs p with
  | zero =>
    cases g with
    | zero => rfl
    | succ g => rw [blocksLoop, blocksLoop, if_neg (by simp only [Config.block]; omega)]
  | succ f ih =>
    cases g with
    | zero => rw [blocksLoop, blocksLoop, if_neg (by simp only [Config.block]; omega)]
    | succ g =>
      simp only [blocksLoop]
      split
      · rename_i hb
        simp only [Config.block] at hb
        exact ih _ _ _ _ (by simp [Config.block]; omega) (by simp [Config.block]; omega)
      · rfl

/-- Fewer than 16 bytes: the loop runs zero times (R98). -/
theorem blocks_of_lt (v : Lanes) (bs : List Byte) (h : bs.length < 16) : blocks v bs = (v, 0) := by
  unfold blocks
  cases hl : bs.length with
  | zero => rfl
  | succ n => rw [blocksLoop, if_neg (by simp [Config.block]; omega)]

/-- At least 16 bytes: one block step, then the rest (R98). -/
theorem blocks_of_ge (v : Lanes) (bs : List Byte) (h : 16 ≤ bs.length) :
    blocks v bs = ((blocks (blockStep v (bs.take 16)) (bs.drop 16)).1,
      16 + (blocks (blockStep v (bs.take 16)) (bs.drop 16)).2) := by
  obtain ⟨n, hn⟩ : ∃ n, bs.length = n + 1 := ⟨bs.length - 1, by omega⟩
  rw [blocks, hn, blocksLoop, if_pos (by simpa [Config.block] using h), blocksLoop_offset,
    blocksLoop_fuel n (bs.drop Config.block).length _ _ _ (by simp [Config.block]; omega) (by simp)]
  rfl

/-- The loop stops inside the range, with fewer than 16 bytes left. -/
theorem blocks_rest_lt (v : Lanes) (bs : List Byte) : (bs.drop (blocks v bs).2).length < 16 := by
  induction hn : bs.length using Nat.strong_induction_on generalizing v bs with
  | _ n ih =>
    by_cases h : bs.length < 16
    · simpa [blocks_of_lt v bs h] using h
    · have h16 : 16 ≤ bs.length := by omega
      have := ih (bs.drop 16).length (by simp; omega) (blockStep v (bs.take 16)) (bs.drop 16) rfl
      rw [blocks_of_ge v bs h16, ← List.drop_drop]
      exact this

/-- A whole input of fewer than 16 bytes starts from the seed (R108). -/
theorem startValue_of_lt (seed : Word) (v : Lanes) (n : Nat) (h : n < 16) : startValue seed v n = seed + Config.P5 := by
  simp [startValue, shortInput, Config.block, h]

/-- A whole input of 16 bytes or more starts from the accumulators (R107, R110). -/
theorem startValue_of_ge (seed : Word) (v : Lanes) (n : Nat) (h : 16 ≤ n) : startValue seed v n = merge v := by
  simp [startValue, shortInput, Config.block, Nat.not_lt.2 h]

/-- A block step looks at the first 16 bytes only. -/
theorem blockStep_append (v : Lanes) (b bs : List Byte) (h : b.length = 16) : blockStep v (b ++ bs) = blockStep v b := by
  have hg : ∀ i, i < 16 → (b ++ bs).getD i 0#8 = b.getD i 0#8 := fun i hi => by
    simp [List.getD, List.getElem?_append_left (show i < b.length by omega)]
  simp only [blockStep, le32At, hg _ (show 0 < 16 by omega), hg _ (show 0 + 1 < 16 by omega),
    hg _ (show 0 + 2 < 16 by omega), hg _ (show 0 + 3 < 16 by omega), hg _ (show 4 < 16 by omega),
    hg _ (show 4 + 1 < 16 by omega), hg _ (show 4 + 2 < 16 by omega), hg _ (show 4 + 3 < 16 by omega),
    hg _ (show 8 < 16 by omega), hg _ (show 8 + 1 < 16 by omega), hg _ (show 8 + 2 < 16 by omega),
    hg _ (show 8 + 3 < 16 by omega), hg _ (show 12 < 16 by omega), hg _ (show 12 + 1 < 16 by omega),
    hg _ (show 12 + 2 < 16 by omega), hg _ (show 12 + 3 < 16 by omega)]

end Sys2Proof.Machine
end

