-- ==== Sys2Proof/Laws/Encoding.lean ====
section
/-! SUPPORT. The fields of descriptors read back, descriptors survive their serialization, and the framing finds a
command at the head of a channel. -/

namespace Sys2Proof

/-- A field of a concatenation that lies in its low part. -/
theorem extractLsb'_append_low {n m : Nat} (x : BitVec n) (y : BitVec m) (start len : Nat) (h : start + len ≤ m) :
    (x ++ y).extractLsb' start len = y.extractLsb' start len := by
  ext i hi
  have : start + i < m := by omega
  simp [BitVec.getLsbD_append, this]

/-- A field of a concatenation that lies in its high part. -/
theorem extractLsb'_append_high {n m : Nat} (x : BitVec n) (y : BitVec m) (start len : Nat) (h : m ≤ start) :
    (x ++ y).extractLsb' start len = x.extractLsb' (start - m) len := by
  ext i hi
  have h1 : ¬ start + i < m := by omega
  have h2 : start + i - m = start - m + i := by omega
  simp [BitVec.getLsbD_append, h1, h2]

section Fields
variable (op : Byte) (rsv : BitVec 24) (seed : Word) (len : BitVec 64)

@[simp] theorem op_mkDesc : Desc.op (mkDesc op rsv seed len) = op := by
  rw [Desc.op, mkDesc, extractLsb'_append_low _ _ _ _ (by omega), extractLsb'_append_low _ _ _ _ (by omega),
    extractLsb'_append_low _ _ _ _ (by omega)]; simp

@[simp] theorem rsv_mkDesc : Desc.rsv (mkDesc op rsv seed len) = rsv := by
  rw [Desc.rsv, mkDesc, extractLsb'_append_low _ _ _ _ (by omega), extractLsb'_append_low _ _ _ _ (by omega),
    extractLsb'_append_high _ _ _ _ (by omega)]; simp

@[simp] theorem seed_mkDesc : Desc.seed (mkDesc op rsv seed len) = seed := by
  rw [Desc.seed, mkDesc, extractLsb'_append_low _ _ _ _ (by omega), extractLsb'_append_high _ _ _ _ (by omega)]; simp

@[simp] theorem len_mkDesc : Desc.len (mkDesc op rsv seed len) = len := by
  rw [Desc.len, mkDesc, extractLsb'_append_high _ _ _ _ (by omega)]; simp

end Fields

/-- A descriptor is its four fields. -/
theorem mkDesc_fields (d : Desc) : mkDesc (Desc.op d) (Desc.rsv d) (Desc.seed d) (Desc.len d) = d := by
  simp only [mkDesc, Desc.op, Desc.rsv, Desc.seed, Desc.len]
  rw [BitVec.extractLsb'_append_extractLsb'_eq_extractLsb' (by omega),
    BitVec.extractLsb'_append_extractLsb'_eq_extractLsb' (by omega),
    BitVec.extractLsb'_append_extractLsb'_eq_extractLsb' (by omega)]
  exact BitVec.extractLsb'_eq_self

@[simp] theorem descBytes_length (d : Desc) : (descBytes d).length = 16 := rfl

/-- Serialization loses nothing, whatever follows the sixteen bytes. -/
theorem descOfBytes_descBytes (d : Desc) (bs : List Byte) : descOfBytes (descBytes d ++ bs) = d := by
  have h : (descBytes d ++ bs).take 16 = descBytes d := List.take_left' rfl
  apply BitVec.eq_of_toNat_eq
  rw [descOfBytes, h]
  simp only [descBytes, List.range, List.range.loop, List.map_cons, List.map_nil, List.foldr_cons, List.foldr_nil,
    BitVec.toNat_ofNat, BitVec.extractLsb'_toNat, Nat.shiftRight_eq_div_pow]
  have := d.isLt
  omega

/-- The framing finds a well-formed command at the head of a channel, and what follows it. -/
theorem takeCommand_bytes_append (c : Command) (rest : List Byte) (h : c.wellFormed = true) :
    takeCommand (c.bytes ++ rest) = some (c, rest) := by
  have hl : c.pay.length = (Desc.len c.desc).toNat := by simpa [Command.wellFormed] using h
  have hd : (c.bytes ++ rest).drop 16 = c.pay ++ rest := by
    rw [Command.bytes, List.append_assoc, List.drop_left' (descBytes_length _)]
  simp only [takeCommand, hd]
  rw [Command.bytes, List.append_assoc, descOfBytes_descBytes, ← hl]
  simp

/-- What the framing takes is a well-formed command. -/
theorem takeCommand_wellFormed (bs : List Byte) (c : Command) (rest : List Byte) (h : takeCommand bs = some (c, rest)) :
    c.wellFormed = true := by
  simp only [takeCommand] at h
  split at h
  · simp only [Option.some.injEq, Prod.mk.injEq] at h
    obtain ⟨rfl, rfl⟩ := h
    simp [Command.wellFormed]
    omega
  · cases h

/-- Encoding gives a well-formed descriptor and payload. -/
theorem encodeCommand_wellFormed (i : Instr) (h : i.wellFormed = true) : (encodeCommand i).wellFormed = true := by
  have : i.payload.length < 2 ^ 64 := by simpa [Instr.wellFormed] using h
  simp [Command.wellFormed, encodeCommand, encodeDesc]
  omega

/-- The instruction of a legal descriptor and its payload. -/
theorem decodeCommand_of_lookup (c : Command) (m : Mnemonic) (hw : c.wellFormed = true) (h : lookup c.desc = some m) :
    decodeCommand c = .ok (operands m c.desc c.pay) := by
  simp [decodeCommand, hw, h]

/-- A descriptor of no row of the table is illegal. -/
theorem decodeCommand_of_lookup_none (c : Command) (hw : c.wellFormed = true) (h : lookup c.desc = none) :
    decodeCommand c = .error (.illegalCommand (Desc.op c.desc)) := by
  simp [decodeCommand, hw, h]

namespace Machine

section ResponseFields
variable (status op : Byte) (val : Word) (cnt : BitVec 64) (rpay : List Byte)

@[simp] theorem status_mkResponseDesc : (Response.mk (mkResponseDesc status op val cnt) rpay).status = status := by
  rw [Response.status, mkResponseDesc, extractLsb'_append_low _ _ _ _ (by omega),
    extractLsb'_append_low _ _ _ _ (by omega), extractLsb'_append_low _ _ _ _ (by omega),
    extractLsb'_append_low _ _ _ _ (by omega)]; simp

@[simp] theorem op_mkResponseDesc : (Response.mk (mkResponseDesc status op val cnt) rpay).op = op := by
  rw [Response.op, mkResponseDesc, extractLsb'_append_low _ _ _ _ (by omega),
    extractLsb'_append_low _ _ _ _ (by omega), extractLsb'_append_low _ _ _ _ (by omega),
    extractLsb'_append_high _ _ _ _ (by omega)]; simp

@[simp] theorem zero_mkResponseDesc : (Response.mk (mkResponseDesc status op val cnt) rpay).zero = 0#16 := by
  rw [Response.zero, mkResponseDesc, extractLsb'_append_low _ _ _ _ (by omega),
    extractLsb'_append_low _ _ _ _ (by omega), extractLsb'_append_high _ _ _ _ (by omega)]; simp

@[simp] theorem val_mkResponseDesc : (Response.mk (mkResponseDesc status op val cnt) rpay).val = val := by
  rw [Response.val, mkResponseDesc, extractLsb'_append_low _ _ _ _ (by omega),
    extractLsb'_append_high _ _ _ _ (by omega)]; simp

@[simp] theorem cnt_mkResponseDesc : (Response.mk (mkResponseDesc status op val cnt) rpay).cnt = cnt := by
  rw [Response.cnt, mkResponseDesc, extractLsb'_append_high _ _ _ _ (by omega)]; simp

end ResponseFields

end Machine

end Sys2Proof
end

