-- ==== Sys2Proof/Laws/Memory.lean ====
section
/-! SUPPORT. The laws of the byte space `BUF`: a read after a write, the frame of a write, the canonical form. -/

namespace Sys2Proof.Machine

/-- A byte reads back where it was written, and every other index reads as before. -/
theorem Memory.read_write (m : Memory) (a i : Nat) (b : Byte) (h : m.Pairwise fun c d => c.1 < d.1) :
    (m.write a b).read i = if i = a then b else m.read i := by
  induction m with
  | nil => simp only [Memory.write]; split <;> simp_all [Memory.read]
  | cons c m ih =>
    obtain ⟨k, x⟩ := c
    have hm := ih (List.pairwise_cons.1 h).2
    have hlow : ∀ j, j ≤ k → Memory.read m j = Memory.unlisted := by
      have hk := (List.pairwise_cons.1 h).1
      clear ih hm h
      intro j hj
      induction m with
      | nil => rfl
      | cons d m ihm =>
        have hd := hk d (by simp)
        have : j ≠ d.1 := by simp at hd; omega
        simp [Memory.read, this]
        exact ihm fun e he => hk e (by simp [he])
    simp only [Memory.write]
    by_cases h1 : a < k
    · by_cases h2 : b = Memory.unlisted
      · simp only [h1, h2, if_true]
        split
        · subst_vars; simp [Memory.read, Nat.ne_of_lt h1, hlow i (Nat.le_of_lt h1)]
        · rfl
      · simp [h1, h2, Memory.read]
    · by_cases h2 : a = k
      · subst h2
        by_cases h3 : b = Memory.unlisted
        · simp only [h3, lt_irrefl, if_false, if_true]
          by_cases h4 : i = a
          · subst h4; simp [hlow i (Nat.le_refl i)]
          · simp [Memory.read, h4]
        · by_cases h4 : i = a <;> simp [h3, h4, Memory.read]
      · by_cases h4 : i = k
        · subst h4; simp [h1, h2, Memory.read, Ne.symm h2]
        · simp [h1, h2, h4, Memory.read, hm]

/-- A cell that a write leaves behind was there before or is the written one. -/
theorem Memory.mem_write (m : Memory) (a : Nat) (b : Byte) (c : Host.Cell) (h : c ∈ m.write a b) :
    c ∈ m ∨ (c = (a, b) ∧ b ≠ Memory.unlisted) := by
  induction m with
  | nil => simp only [Memory.write] at h; split at h <;> simp_all
  | cons d m ih =>
    obtain ⟨k, x⟩ := d
    simp only [Memory.write] at h
    split at h
    · split at h
      · exact Or.inl h
      · simp_all; tauto
    · split at h
      · split at h <;> simp_all
        tauto
      · simp only [List.mem_cons] at h ⊢
        rcases h with h | h
        · simp [h]
        · rcases ih h with h | h <;> simp [h]

/-- A write at one of the sixteen indices keeps the canonical form. -/
theorem Memory.write_wf (m : Memory) (a : Nat) (b : Byte) (h : m.wf) (ha : a < Config.bufCap) : (m.write a b).wf := by
  refine ⟨?_, fun c hc => ?_⟩
  · obtain ⟨h, -⟩ := h
    induction m with
    | nil => simp only [Memory.write]; split <;> simp
    | cons d m ih =>
      obtain ⟨k, x⟩ := d
      have hk := (List.pairwise_cons.1 h).1
      have hm := (List.pairwise_cons.1 h).2
      simp only [Memory.write]
      split
      · split
        · exact h
        · refine List.pairwise_cons.2 ⟨fun e he => ?_, h⟩
          rcases List.mem_cons.1 he with rfl | he
          · assumption
          · have := hk e he; simp at this ⊢; omega
      · split
        · split
          · exact hm
          · subst_vars; exact List.pairwise_cons.2 ⟨fun e he => hk e he, hm⟩
        · refine List.pairwise_cons.2 ⟨fun e he => ?_, ih hm⟩
          rcases Memory.mem_write _ _ _ _ he with he | ⟨rfl, -⟩
          · exact hk e he
          · simp; omega
  · rcases Memory.mem_write _ _ _ _ hc with hc | ⟨rfl, hb⟩
    · exact h.2 c hc
    · exact ⟨ha, hb⟩

/-- A run of byte writes inside the sixteen cells keeps the canonical form. -/
theorem Memory.writeBytes_wf (m : Memory) (a : Nat) (bs : List Byte) (h : m.wf) (ha : a + bs.length ≤ Config.bufCap) :
    (m.writeBytes a bs).wf := by
  induction bs generalizing m a with
  | nil => exact h
  | cons b bs ih =>
    simp only [List.length_cons] at ha
    exact ih _ _ (Memory.write_wf m a b h (by omega)) (by omega)

/-- After a run of byte writes at `a`, the cells of the run hold its bytes and every other cell is as before. -/
theorem Memory.read_writeBytes (m : Memory) (a i : Nat) (bs : List Byte) (h : m.wf)
    (ha : a + bs.length ≤ Config.bufCap) :
    (m.writeBytes a bs).read i = if a ≤ i ∧ i < a + bs.length then bs.getD (i - a) 0#8 else m.read i := by
  induction bs generalizing m a with
  | nil => rw [if_neg (by simp)]; rfl
  | cons b bs ih =>
    simp only [List.length_cons] at ha
    rw [Memory.writeBytes, ih _ _ (Memory.write_wf m a b h (by omega)) (by omega), Memory.read_write _ _ _ _ h.1]
    by_cases h1 : i = a
    · subst h1; simp
    · by_cases h2 : a + 1 ≤ i ∧ i < a + 1 + bs.length
      · obtain ⟨j, hj⟩ : ∃ j, i - a = j + 1 := ⟨i - a - 1, by omega⟩
        have : i - (a + 1) = j := by omega
        rw [if_pos h2, if_pos (by simp; omega), hj, this]; simp
      · rw [if_neg h2, if_neg h1, if_neg (by simp; omega)]

/-- The cells of a range, one by one. -/
@[simp] theorem Memory.range_length (m : Memory) (a n : Nat) : (m.range a n).length = n := by simp [Memory.range]

theorem Memory.range_getD (m : Memory) (a n i : Nat) (h : i < n) : (m.range a n).getD i 0#8 = m.read (a + i) := by
  simp [Memory.range, List.getD, h]

/-- Ranges are equal when their cells are. -/
theorem Memory.range_congr (m m' : Memory) (a n : Nat) (h : ∀ i < n, m.read (a + i) = m'.read (a + i)) :
    m.range a n = m'.range a n := by
  simp only [Memory.range]
  exact List.map_congr_left fun i hi => h i (List.mem_range.1 hi)

/-- A run of writes directly after a range extends the range by its bytes. -/
theorem Memory.range_writeBytes_append (m : Memory) (n : Nat) (bs : List Byte) (h : m.wf)
    (ha : n + bs.length ≤ Config.bufCap) :
    (m.writeBytes n bs).range 0 (n + bs.length) = m.range 0 n ++ bs := by
  apply List.ext_getElem
  · simp
  · intro i h1 h2
    simp only [Memory.range_length] at h1
    simp only [Memory.range, List.getElem_map, List.getElem_range, Nat.zero_add, List.getElem_append,
      List.length_map, List.length_range]
    rw [Memory.read_writeBytes _ _ _ _ h ha]
    by_cases hi : i < n
    · rw [if_neg (by omega), dif_pos hi]
    · rw [if_pos (by omega), dif_neg hi, List.getD_eq_getElem _ _ (by omega)]

end Sys2Proof.Machine
end

