-- ==== Sys2Proof/Laws/State.lean ====
section
/-! SUPPORT. One lemma per field per update of `State`, each true by definition, so that no later proof unfolds an
update. -/

namespace Sys2Proof.Machine

/-! The updates as record updates, for claims that write a next state out. -/

theorem State.restart_eq (s : State) (v : Lanes) : s.restart v = { s with v := v, len := 0#64, cnt := 0#4 } := (rfl)
theorem State.construct_eq (s : State) (w : Word) : s.construct w = { s with valid := true, seed := w } := (rfl)
theorem State.emit_eq (s : State) (r : Response) : s.emit r = { s with responses := s.responses ++ [r] } := (rfl)
theorem State.setInput_eq (s : State) (bs : List Byte) : s.setInput bs = { s with input := bs } := (rfl)

section Restart
variable (s : State) (v : Lanes)
@[simp] theorem State.restart_valid : (s.restart v).valid = s.valid := (rfl)
@[simp] theorem State.restart_seed : (s.restart v).seed = s.seed := (rfl)
@[simp] theorem State.restart_v : (s.restart v).v = v := (rfl)
@[simp] theorem State.restart_len : (s.restart v).len = 0#64 := (rfl)
@[simp] theorem State.restart_cnt : (s.restart v).cnt = 0#4 := (rfl)
@[simp] theorem State.restart_buf : (s.restart v).buf = s.buf := (rfl)
@[simp] theorem State.restart_por : (s.restart v).por = s.por := (rfl)
@[simp] theorem State.restart_input : (s.restart v).input = s.input := (rfl)
@[simp] theorem State.restart_responses : (s.restart v).responses = s.responses := (rfl)
end Restart

section Construct
variable (s : State) (w : Word)
@[simp] theorem State.construct_valid : (s.construct w).valid = true := (rfl)
@[simp] theorem State.construct_seed : (s.construct w).seed = w := (rfl)
@[simp] theorem State.construct_v : (s.construct w).v = s.v := (rfl)
@[simp] theorem State.construct_len : (s.construct w).len = s.len := (rfl)
@[simp] theorem State.construct_cnt : (s.construct w).cnt = s.cnt := (rfl)
@[simp] theorem State.construct_buf : (s.construct w).buf = s.buf := (rfl)
@[simp] theorem State.construct_por : (s.construct w).por = s.por := (rfl)
@[simp] theorem State.construct_input : (s.construct w).input = s.input := (rfl)
@[simp] theorem State.construct_responses : (s.construct w).responses = s.responses := (rfl)
end Construct

section AddLen
variable (s : State) (n : Nat)
@[simp] theorem State.addLen_valid : (s.addLen n).valid = s.valid := (rfl)
@[simp] theorem State.addLen_seed : (s.addLen n).seed = s.seed := (rfl)
@[simp] theorem State.addLen_v : (s.addLen n).v = s.v := (rfl)
@[simp] theorem State.addLen_len : (s.addLen n).len = s.len + BitVec.ofNat 64 n := (rfl)
@[simp] theorem State.addLen_cnt : (s.addLen n).cnt = s.cnt := (rfl)
@[simp] theorem State.addLen_buf : (s.addLen n).buf = s.buf := (rfl)
@[simp] theorem State.addLen_por : (s.addLen n).por = s.por := (rfl)
@[simp] theorem State.addLen_input : (s.addLen n).input = s.input := (rfl)
@[simp] theorem State.addLen_responses : (s.addLen n).responses = s.responses := (rfl)
end AddLen

section SetLanes
variable (s : State) (v : Lanes)
@[simp] theorem State.setLanes_valid : (s.setLanes v).valid = s.valid := (rfl)
@[simp] theorem State.setLanes_seed : (s.setLanes v).seed = s.seed := (rfl)
@[simp] theorem State.setLanes_v : (s.setLanes v).v = v := (rfl)
@[simp] theorem State.setLanes_len : (s.setLanes v).len = s.len := (rfl)
@[simp] theorem State.setLanes_cnt : (s.setLanes v).cnt = s.cnt := (rfl)
@[simp] theorem State.setLanes_buf : (s.setLanes v).buf = s.buf := (rfl)
@[simp] theorem State.setLanes_por : (s.setLanes v).por = s.por := (rfl)
@[simp] theorem State.setLanes_input : (s.setLanes v).input = s.input := (rfl)
@[simp] theorem State.setLanes_responses : (s.setLanes v).responses = s.responses := (rfl)
end SetLanes

section SetCnt
variable (s : State) (n : Nat)
@[simp] theorem State.setCnt_valid : (s.setCnt n).valid = s.valid := (rfl)
@[simp] theorem State.setCnt_seed : (s.setCnt n).seed = s.seed := (rfl)
@[simp] theorem State.setCnt_v : (s.setCnt n).v = s.v := (rfl)
@[simp] theorem State.setCnt_len : (s.setCnt n).len = s.len := (rfl)
@[simp] theorem State.setCnt_cnt : (s.setCnt n).cnt = BitVec.ofNat 4 n := (rfl)
@[simp] theorem State.setCnt_buf : (s.setCnt n).buf = s.buf := (rfl)
@[simp] theorem State.setCnt_por : (s.setCnt n).por = s.por := (rfl)
@[simp] theorem State.setCnt_input : (s.setCnt n).input = s.input := (rfl)
@[simp] theorem State.setCnt_responses : (s.setCnt n).responses = s.responses := (rfl)
end SetCnt

section SetBuf
variable (s : State) (m : Memory)
@[simp] theorem State.setBuf_valid : (s.setBuf m).valid = s.valid := (rfl)
@[simp] theorem State.setBuf_seed : (s.setBuf m).seed = s.seed := (rfl)
@[simp] theorem State.setBuf_v : (s.setBuf m).v = s.v := (rfl)
@[simp] theorem State.setBuf_len : (s.setBuf m).len = s.len := (rfl)
@[simp] theorem State.setBuf_cnt : (s.setBuf m).cnt = s.cnt := (rfl)
@[simp] theorem State.setBuf_buf : (s.setBuf m).buf = m := (rfl)
@[simp] theorem State.setBuf_por : (s.setBuf m).por = s.por := (rfl)
@[simp] theorem State.setBuf_input : (s.setBuf m).input = s.input := (rfl)
@[simp] theorem State.setBuf_responses : (s.setBuf m).responses = s.responses := (rfl)
end SetBuf

section SetInput
variable (s : State) (bs : List Byte)
@[simp] theorem State.setInput_valid : (s.setInput bs).valid = s.valid := (rfl)
@[simp] theorem State.setInput_seed : (s.setInput bs).seed = s.seed := (rfl)
@[simp] theorem State.setInput_v : (s.setInput bs).v = s.v := (rfl)
@[simp] theorem State.setInput_len : (s.setInput bs).len = s.len := (rfl)
@[simp] theorem State.setInput_cnt : (s.setInput bs).cnt = s.cnt := (rfl)
@[simp] theorem State.setInput_buf : (s.setInput bs).buf = s.buf := (rfl)
@[simp] theorem State.setInput_por : (s.setInput bs).por = s.por := (rfl)
@[simp] theorem State.setInput_input : (s.setInput bs).input = bs := (rfl)
@[simp] theorem State.setInput_responses : (s.setInput bs).responses = s.responses := (rfl)
end SetInput

section Emit
variable (s : State) (r : Response)
@[simp] theorem State.emit_valid : (s.emit r).valid = s.valid := (rfl)
@[simp] theorem State.emit_seed : (s.emit r).seed = s.seed := (rfl)
@[simp] theorem State.emit_v : (s.emit r).v = s.v := (rfl)
@[simp] theorem State.emit_len : (s.emit r).len = s.len := (rfl)
@[simp] theorem State.emit_cnt : (s.emit r).cnt = s.cnt := (rfl)
@[simp] theorem State.emit_buf : (s.emit r).buf = s.buf := (rfl)
@[simp] theorem State.emit_por : (s.emit r).por = s.por := (rfl)
@[simp] theorem State.emit_input : (s.emit r).input = s.input := (rfl)
@[simp] theorem State.emit_responses : (s.emit r).responses = s.responses ++ [r] := (rfl)
end Emit

section WithFirstBytes
variable (s : State) (bs : List Byte)
@[simp] theorem State.withFirstBytes_valid : (s.withFirstBytes bs).valid = s.valid := (rfl)
@[simp] theorem State.withFirstBytes_seed : (s.withFirstBytes bs).seed = s.seed := (rfl)
@[simp] theorem State.withFirstBytes_v : (s.withFirstBytes bs).v = s.v := (rfl)
@[simp] theorem State.withFirstBytes_len : (s.withFirstBytes bs).len = s.len := (rfl)
@[simp] theorem State.withFirstBytes_cnt : (s.withFirstBytes bs).cnt = s.cnt := (rfl)
@[simp] theorem State.withFirstBytes_buf : (s.withFirstBytes bs).buf = s.buf := (rfl)
@[simp] theorem State.withFirstBytes_por : (s.withFirstBytes bs).por = false := (rfl)
@[simp] theorem State.withFirstBytes_input : (s.withFirstBytes bs).input = bs ++ s.input := (rfl)
@[simp] theorem State.withFirstBytes_responses : (s.withFirstBytes bs).responses = s.responses := (rfl)
end WithFirstBytes

section PowerOnReset
variable (s : State)
@[simp] theorem powerOnReset_valid : (powerOnReset s).valid = State.reset.valid := (rfl)
@[simp] theorem powerOnReset_seed : (powerOnReset s).seed = State.reset.seed := (rfl)
@[simp] theorem powerOnReset_v : (powerOnReset s).v = State.reset.v := (rfl)
@[simp] theorem powerOnReset_len : (powerOnReset s).len = State.reset.len := (rfl)
@[simp] theorem powerOnReset_cnt : (powerOnReset s).cnt = State.reset.cnt := (rfl)
@[simp] theorem powerOnReset_buf : (powerOnReset s).buf = State.reset.buf := (rfl)
@[simp] theorem powerOnReset_por : (powerOnReset s).por = State.reset.por := (rfl)
@[simp] theorem powerOnReset_input : (powerOnReset s).input = State.reset.input := (rfl)
@[simp] theorem powerOnReset_responses : (powerOnReset s).responses = s.responses := (rfl)
end PowerOnReset

end Sys2Proof.Machine
end

