-- ==== Sys2Proof/Laws/Ops.lean ====
section
/-! SUPPORT. What each shared operation can do, said once: storing to `BUF`, the `VALID` check, the length checks. -/

namespace Sys2Proof.Machine

/-- A run inside the sixteen cells is stored. -/
theorem storeBuf_of_le (a : Nat) (bs : List Byte) (k : State → Host.Outcome State Fault Refusal) (s : State)
    (h : a + bs.length ≤ 16) : storeBuf a bs k s = k (s.setBuf (s.buf.writeBytes a bs)) := by
  rw [storeBuf, if_pos (by simpa [Config.bufCap] using h)]

/-- A run that leaves the sixteen cells is the model's fault. -/
theorem storeBuf_of_gt (a : Nat) (bs : List Byte) (k : State → Host.Outcome State Fault Refusal) (s : State)
    (h : 16 < a + bs.length) : storeBuf a bs k s = .fault .bufIndex := by
  rw [storeBuf, if_neg (by simpa [Config.bufCap] using h)]

@[simp] theorem whenConstructed_of_valid (m : Mnemonic) (k : State → Host.Outcome State Fault Refusal) (s : State)
    (h : s.valid = true) : whenConstructed m k s = k s := by simp [whenConstructed, h]

@[simp] theorem whenConstructed_of_invalid (m : Mnemonic) (k : State → Host.Outcome State Fault Refusal) (s : State)
    (h : s.valid = false) : whenConstructed m k s = raise .notConstructed m.code s := by simp [whenConstructed, h]

/-- Responding goes on with one response more. -/
theorem respond_eq (m : Mnemonic) (val : Word) (cnt : BitVec 64) (rpay : List Byte) (s : State) :
    respond m val cnt rpay s = .next (s.emit ⟨mkResponseDesc okCode m.code val cnt, rpay⟩) := (rfl)

/-- A fault goes on with one response more. -/
theorem raise_eq (f : Cause) (op : Byte) (s : State) :
    raise f op s = .next (s.emit ⟨mkResponseDesc f.code op 0#32 0#64, []⟩) := (rfl)

theorem writeOverflows_iff (len : BitVec 64) (n : Nat) : writeOverflows len n = true ↔ 2 ^ 64 - 1 < len.toNat + n := by
  exact decide_eq_true_iff

theorem sumOverflows_iff (n : Nat) : sumOverflows n = true ↔ 2 ^ 64 - 5 < n := by
  exact decide_eq_true_iff

theorem fitsPending_iff (cnt : BitVec 4) (n : Nat) : fitsPending cnt n = true ↔ cnt.toNat + n < 16 := by
  exact decide_eq_true_iff

/-- The length after an accepted `WRITE` is the true total (R23). -/
theorem addLen_toNat (s : State) (n : Nat) (h : s.len.toNat + n ≤ 2 ^ 64 - 1) :
    (s.addLen n).len.toNat = s.len.toNat + n := by
  simp only [State.addLen_len, BitVec.toNat_add, BitVec.toNat_ofNat]
  omega

/-- A pending count below 16 is held exactly (R24). -/
theorem setCnt_toNat (s : State) (n : Nat) (h : n < 16) : (s.setCnt n).cnt.toNat = n := by
  simp only [State.setCnt_cnt, BitVec.toNat_ofNat]
  omega

@[simp] theorem pend_length (s : State) : s.pend.length = s.cnt.toNat := by simp [State.pend]

/-- Pending bytes are a function of the buffer and the count. -/
theorem pend_congr (s t : State) (hb : s.buf = t.buf) (hc : s.cnt = t.cnt) : s.pend = t.pend := by
  simp [State.pend, hb, hc]

end Sys2Proof.Machine
end

