-- ==== Sys2Proof/Laws/Exec.lean ====
section
/-! SUPPORT. What each command can do, as equations over the shared operations, and the inversion of `exec`: a command
takes one of the two faults that leave the context alone, or it has its own effect. -/

namespace Sys2Proof.Machine

/-- `NEW`, in every state. -/
theorem execNew_eq (seed : Word) (s : State) : execNew seed s =
    .next (((s.construct seed).restart (init seed)).emit ⟨mkResponseDesc okCode 0x01#8 0#32 0#64, []⟩) := (rfl)

/-- `RESET` of a constructed hasher. -/
theorem execReset_of_valid (s : State) (hv : s.valid = true) : execReset s =
    .next ((s.restart (init s.seed)).emit ⟨mkResponseDesc okCode 0x02#8 0#32 0#64, []⟩) := by
  rw [execReset, whenConstructed_of_valid _ _ _ hv]; rfl

/-- `SUM32` of a constructed hasher. -/
theorem execSum32_of_valid (s : State) (hv : s.valid = true) : execSum32 s =
    .next (s.emit ⟨mkResponseDesc okCode 0x04#8 s.digest 0#64, []⟩) := by
  rw [execSum32, whenConstructed_of_valid _ _ _ hv]; rfl

/-- The buffer after the head of a long `WRITE` (R124). -/
def headBuf (data : List Byte) (s : State) : Memory := s.buf.writeBytes s.cnt.toNat (data.take (16 - s.cnt.toNat))

/-- The block processor's result over the direct region of a long `WRITE`, after the block from the buffer (R124). -/
def longResult (data : List Byte) (s : State) : Lanes × Nat :=
  blocks (blockStep s.v ((headBuf data s).range 0 16)) (data.drop (16 - s.cnt.toNat))

/-- The remainder of a long `WRITE` (R124). -/
def longRest (data : List Byte) (s : State) : List Byte :=
  (data.drop (16 - s.cnt.toNat)).drop (longResult data s).2

theorem longRest_lt (data : List Byte) (s : State) : (longRest data s).length < 16 := blocks_rest_lt _ _

/-- The short path. -/
theorem writeShort_eq (data : List Byte) (s : State) (h : s.cnt.toNat + data.length < 16) :
    writeShort data s = respond .write 0#32 (BitVec.ofNat 64 data.length) []
      ((s.setBuf (s.buf.writeBytes s.cnt.toNat data)).setCnt (s.cnt.toNat + data.length)) :=
  storeBuf_of_le _ _ _ _ (by omega)

/-- The long path. -/
theorem writeLong_eq (data : List Byte) (s : State) :
    writeLong data s = respond .write 0#32 (BitVec.ofNat 64 data.length) []
      (((s.setBuf ((headBuf data s).writeBytes 0 (longRest data s))).setLanes (longResult data s).1).setCnt
        (longRest data s).length) := by
  have hc := s.cnt.isLt
  have hr := longRest_lt data s
  rw [writeLong]
  exact (storeBuf_of_le _ _ _ _ (by simp [Config.bufCap]; omega)).trans
    (storeBuf_of_le _ _ _ _ (by
      show 0 + (longRest data s).length ≤ 16
      omega))

/-- The three ways of a `WRITE` on a constructed hasher. -/
theorem execWrite_cases (data : List Byte) (s : State) (hv : s.valid = true) :
    (2 ^ 64 - 1 < s.len.toNat + data.length ∧
      execWrite data s = raise .lengthOverflow Mnemonic.write.code s) ∨
    (s.len.toNat + data.length ≤ 2 ^ 64 - 1 ∧ s.cnt.toNat + data.length < 16 ∧
      execWrite data s = writeShort data (s.addLen data.length)) ∨
    (s.len.toNat + data.length ≤ 2 ^ 64 - 1 ∧ 16 ≤ s.cnt.toNat + data.length ∧
      execWrite data s = writeLong data (s.addLen data.length)) := by
  rw [execWrite, whenConstructed_of_valid _ _ _ hv]
  by_cases h1 : writeOverflows s.len data.length = true
  · exact .inl ⟨(writeOverflows_iff _ _).1 h1, by simp [h1]⟩
  · have h1' := mt (writeOverflows_iff _ _).2 h1
    by_cases h2 : fitsPending s.cnt data.length = true
    · exact .inr (.inl ⟨by omega, (fitsPending_iff _ _).1 h2, by simp [h1, h2]⟩)
    · exact .inr (.inr ⟨by omega, by have := mt (fitsPending_iff _ _).2 h2; omega, by simp [h1, h2]⟩)

/-- The two ways of a `SUM` on a constructed hasher. -/
theorem execSum_cases (pre : List Byte) (s : State) (hv : s.valid = true) :
    (2 ^ 64 - 5 < pre.length ∧ execSum pre s = raise .lengthOverflow Mnemonic.sum.code s) ∨
    (pre.length ≤ 2 ^ 64 - 5 ∧ execSum pre s =
      respond .sum 0#32 (BitVec.ofNat 64 (pre.length + 4)) (pre ++ digestBytes s.digest) s) := by
  rw [execSum, whenConstructed_of_valid _ _ _ hv]
  by_cases h : sumOverflows pre.length = true
  · exact .inl ⟨(sumOverflows_iff _).1 h, by simp [h]⟩
  · exact .inr ⟨by have := mt (sumOverflows_iff _).2 h; omega, by simp [h]⟩

/-- An outcome that goes on with one response more than `s` has, and the host's side otherwise as in `s`. -/
def Answers (s : State) (o : Host.Outcome State Fault Refusal) : Prop :=
  ∃ t r, o = .next t ∧ t.responses = s.responses ++ [r] ∧ t.input = s.input ∧ t.por = s.por

theorem answers_respond (m : Mnemonic) (val : Word) (cnt : BitVec 64) (rpay : List Byte) (s u : State)
    (hr : u.responses = s.responses) (hi : u.input = s.input) (hp : u.por = s.por) :
    Answers s (respond m val cnt rpay u) :=
  ⟨_, _, rfl, by rw [State.emit_responses, hr], hi, hp⟩

theorem answers_raise (f : Cause) (op : Byte) (s : State) : Answers s (raise f op s) :=
  ⟨_, _, rfl, rfl, rfl, rfl⟩

/-- The `VALID` check answers where what it guards does. -/
theorem answers_whenConstructed (m : Mnemonic) (k : State → Host.Outcome State Fault Refusal) (s : State)
    (h : s.valid = true → Answers s (k s)) : Answers s (whenConstructed m k s) := by
  rw [whenConstructed]
  split
  · exact h ‹_›
  · exact answers_raise _ _ _

theorem execNew_answers (w : Word) (s : State) : Answers s (execNew w s) :=
  answers_respond .new 0#32 0#64 [] s ((s.construct w).restart (init w)) (by simp) (by simp) (by simp)

theorem execReset_answers (s : State) : Answers s (execReset s) := by
  rw [execReset]
  refine answers_whenConstructed .reset _ s fun _ => ?_
  exact answers_respond .reset 0#32 0#64 [] s (s.restart (init s.seed)) (by simp) (by simp) (by simp)

theorem execWrite_answers (data : List Byte) (s : State) : Answers s (execWrite data s) := by
  by_cases hv : s.valid = true
  · rcases execWrite_cases data s hv with ⟨-, h⟩ | ⟨-, h2, h⟩ | ⟨-, -, h⟩ <;> rw [h]
    · exact answers_raise _ _ _
    · rw [writeShort_eq _ _ (by simpa using h2)]
      exact answers_respond _ _ _ _ _ _ (by simp) (by simp) (by simp)
    · rw [writeLong_eq]
      exact answers_respond _ _ _ _ _ _ (by simp) (by simp) (by simp)
  · rw [execWrite]
    exact answers_whenConstructed _ _ _ fun h => absurd h hv

theorem execSum32_answers (s : State) : Answers s (execSum32 s) := by
  rw [execSum32]
  refine answers_whenConstructed .sum32 _ s fun _ => ?_
  exact answers_respond .sum32 s.digest 0#64 [] s s rfl rfl rfl

theorem execSum_answers (pre : List Byte) (s : State) : Answers s (execSum pre s) := by
  by_cases hv : s.valid = true
  · rcases execSum_cases pre s hv with ⟨-, h⟩ | ⟨-, h⟩ <;> rw [h]
    · exact answers_raise _ _ _
    · exact answers_respond _ _ _ _ s s rfl rfl rfl
  · rw [execSum]
    exact answers_whenConstructed _ _ _ fun h => absurd h hv

/-- Every command ends in a next state that has one response more; nothing else of the host's side changes. -/
theorem exec_answers (i : Instr) (s : State) : Answers s (exec i s) := by
  cases i with
  | new w => exact execNew_answers w s
  | reset => exact execReset_answers s
  | write data => exact execWrite_answers data s
  | sum32 => exact execSum32_answers s
  | sum pre => exact execSum_answers pre s
  | size => exact answers_respond _ _ _ _ s s rfl rfl rfl
  | blocksize => exact answers_respond _ _ _ _ s s rfl rfl rfl
  | checksum w data => exact answers_respond _ _ _ _ s s rfl rfl rfl

end Sys2Proof.Machine
end

