-- ==== Sys2Proof/Laws/PerInstr.lean ====
section
/-! SUPPORT. One statement per command, for all commands: a command's descriptor is found in the row of the opcode table
that its mnemonic names (30_encoding.md R65, R66). -/

namespace Sys2Proof

/-- A bitwise and of two concatenations of the same split. -/
theorem and_append {n m : Nat} (a b : BitVec n) (c d : BitVec m) : (a ++ c) &&& (b ++ d) = (a &&& b) ++ (c &&& d) := by
  apply BitVec.eq_of_getLsbD_eq
  intro i _
  simp only [BitVec.getLsbD_and, BitVec.getLsbD_append]
  split <;> rfl

/-- A mask of the table applied to a descriptor, field by field. -/
theorem mkDesc_and (op op' : Byte) (rsv rsv' : BitVec 24) (seed seed' : Word) (len len' : BitVec 64) :
    mkDesc op rsv seed len &&& mkDesc op' rsv' seed' len' =
      mkDesc (op &&& op') (rsv &&& rsv') (seed &&& seed') (len &&& len') := by
  unfold mkDesc
  exact (and_append _ _ _ _).trans (congrArg _ ((and_append _ _ _ _).trans (congrArg _ (and_append _ _ _ _))))

/-- Descriptors are equal when their fields are. -/
theorem mkDesc_inj (op op' : Byte) (rsv rsv' : BitVec 24) (seed seed' : Word) (len len' : BitVec 64) :
    mkDesc op rsv seed len = mkDesc op' rsv' seed' len' ↔ op = op' ∧ rsv = rsv' ∧ seed = seed' ∧ len = len' := by
  constructor
  · intro h
    exact ⟨by simpa using congrArg Desc.op h, by simpa using congrArg Desc.rsv h, by simpa using congrArg Desc.seed h,
      by simpa using congrArg Desc.len h⟩
  · rintro ⟨rfl, rfl, rfl, rfl⟩; rfl

/-- A row that fixes `OP` and `RSV`, and of `SEED` and `LEN` the bits of two masks, covers the descriptors whose fixed
fields are the row's. -/
theorem row_covers (m : Mnemonic) (seedMask : Word) (lenMask : BitVec 64) (code : Byte) (d : Desc) :
    (Row.mk m (mkDesc 0xFF#8 0xFFFFFF#24 seedMask lenMask) (mkDesc code 0#24 0#32 0#64)).covers d = true ↔
      Desc.op d = code ∧ Desc.rsv d = 0#24 ∧ Desc.seed d &&& seedMask = 0#32 ∧ Desc.len d &&& lenMask = 0#64 := by
  have h1 : Desc.op d &&& 0xFF#8 = Desc.op d := BitVec.and_allOnes
  have h2 : Desc.rsv d &&& 0xFFFFFF#24 = Desc.rsv d := BitVec.and_allOnes
  rw [Row.covers, beq_iff_eq]
  simp only
  conv_lhs => rw [← mkDesc_fields d]
  rw [mkDesc_and, mkDesc_inj, h1, h2]

/-- The table's rows as fields: which of `SEED` and `LEN` each row leaves free (R66). -/
theorem opcodeTable_fields : opcodeTable =
    [⟨.new,       mkDesc 0xFF#8 0xFFFFFF#24 0#32 0xFFFFFFFFFFFFFFFF#64, mkDesc 0x01#8 0#24 0#32 0#64⟩,
     ⟨.reset,     mkDesc 0xFF#8 0xFFFFFF#24 0xFFFFFFFF#32 0xFFFFFFFFFFFFFFFF#64, mkDesc 0x02#8 0#24 0#32 0#64⟩,
     ⟨.write,     mkDesc 0xFF#8 0xFFFFFF#24 0xFFFFFFFF#32 0#64, mkDesc 0x03#8 0#24 0#32 0#64⟩,
     ⟨.sum32,     mkDesc 0xFF#8 0xFFFFFF#24 0xFFFFFFFF#32 0xFFFFFFFFFFFFFFFF#64, mkDesc 0x04#8 0#24 0#32 0#64⟩,
     ⟨.sum,       mkDesc 0xFF#8 0xFFFFFF#24 0xFFFFFFFF#32 0#64, mkDesc 0x05#8 0#24 0#32 0#64⟩,
     ⟨.size,      mkDesc 0xFF#8 0xFFFFFF#24 0xFFFFFFFF#32 0xFFFFFFFFFFFFFFFF#64, mkDesc 0x06#8 0#24 0#32 0#64⟩,
     ⟨.blocksize, mkDesc 0xFF#8 0xFFFFFF#24 0xFFFFFFFF#32 0xFFFFFFFFFFFFFFFF#64, mkDesc 0x07#8 0#24 0#32 0#64⟩,
     ⟨.checksum,  mkDesc 0xFF#8 0xFFFFFF#24 0#32 0#64, mkDesc 0x08#8 0#24 0#32 0#64⟩] := by decide

/-- The first row of a list, or the rows after it. -/
theorem find?_cons_map {α β : Type} (p : α → Bool) (f : α → β) (a : α) (as : List α) :
    ((a :: as).find? p).map f = if p a = true then some (f a) else (as.find? p).map f := by
  rw [List.find?_cons]; cases p a <;> rfl

/-- The lookup by fields: opcode, `RSV` zero, and zero in the fields that the row does not leave free (R66 to R68). -/
theorem lookup_fields (d : Desc) : lookup d =
    if Desc.rsv d = 0#24 then
      if Desc.op d = 0x01#8 ∧ Desc.len d = 0#64 then some .new
      else if Desc.op d = 0x02#8 ∧ Desc.seed d = 0#32 ∧ Desc.len d = 0#64 then some .reset
      else if Desc.op d = 0x03#8 ∧ Desc.seed d = 0#32 then some .write
      else if Desc.op d = 0x04#8 ∧ Desc.seed d = 0#32 ∧ Desc.len d = 0#64 then some .sum32
      else if Desc.op d = 0x05#8 ∧ Desc.seed d = 0#32 then some .sum
      else if Desc.op d = 0x06#8 ∧ Desc.seed d = 0#32 ∧ Desc.len d = 0#64 then some .size
      else if Desc.op d = 0x07#8 ∧ Desc.seed d = 0#32 ∧ Desc.len d = 0#64 then some .blocksize
      else if Desc.op d = 0x08#8 then some .checksum
      else none
    else none := by
  have hs : Desc.seed d &&& 0xFFFFFFFF#32 = Desc.seed d := BitVec.and_allOnes
  have hl : Desc.len d &&& 0xFFFFFFFFFFFFFFFF#64 = Desc.len d := BitVec.and_allOnes
  have cov : ∀ (m : Mnemonic) (seedMask : Word) (lenMask : BitVec 64) (code : Byte),
      (Row.mk m (mkDesc 0xFF#8 0xFFFFFF#24 seedMask lenMask) (mkDesc code 0#24 0#32 0#64)).covers d =
        decide (Desc.op d = code ∧ Desc.rsv d = 0#24 ∧ Desc.seed d &&& seedMask = 0#32 ∧
          Desc.len d &&& lenMask = 0#64) := fun m sm lm code => by
    rw [Bool.eq_iff_iff, row_covers, decide_eq_true_iff]
  rw [lookup, opcodeTable_fields]
  simp only [find?_cons_map, List.find?_nil, Option.map_none, cov, decide_eq_true_iff, hs, hl, BitVec.and_zero, and_true]
  by_cases hr : Desc.rsv d = 0#24
  · simp only [hr, true_and, and_true, if_true]
  · simp only [hr, false_and, and_false, if_false]

end Sys2Proof

namespace Sys2Proof.Laws.RowFound

/-- The encoded descriptor selects the command's own row. -/
def Statement (i : Instr) : Prop := lookup (encodeDesc i) = some i.mnemonic

theorem new (seed : Word) : Statement (.new seed) := by
  rw [Statement, lookup_fields]; simp [encodeDesc, Instr.mnemonic, Instr.payload, Mnemonic.code]

theorem reset : Statement .reset := by unfold Statement; decide

theorem write (data : List Byte) : Statement (.write data) := by
  rw [Statement, lookup_fields]; simp [encodeDesc, Instr.mnemonic, Instr.seedField, Mnemonic.code]

theorem sum32 : Statement .sum32 := by unfold Statement; decide

theorem sum (pre : List Byte) : Statement (.sum pre) := by
  rw [Statement, lookup_fields]; simp [encodeDesc, Instr.mnemonic, Instr.seedField, Mnemonic.code]

theorem size : Statement .size := by unfold Statement; decide

theorem blocksize : Statement .blocksize := by unfold Statement; decide

theorem checksum (seed : Word) (data : List Byte) : Statement (.checksum seed data) := by
  rw [Statement, lookup_fields]; simp [encodeDesc, Instr.mnemonic, Mnemonic.code]

end Sys2Proof.Laws.RowFound
end

