-- ==== Sys2Proof/Laws/Step.lean ====
section
/-! SUPPORT. What one step can do, said once. -/

namespace Sys2Proof.Machine

/-- A whole command at the head of the channel is consumed and run. -/
theorem step_of_takeCommand (s : State) (c : Command) (rest : List Byte) (hp : s.por = false)
    (h : takeCommand s.input = some (c, rest)) : step s = runCommand c (s.setInput rest) := by
  have hne : s.input.isEmpty = false := by
    cases hi : s.input with
    | nil => rw [hi] at h; simp [takeCommand] at h
    | cons b bs => rfl
  simp [step, sequencer, hp, hne, h]

/-- The same, for a channel that begins with the bytes of a well-formed command. -/
theorem step_of_bytes (s : State) (c : Command) (rest : List Byte) (hp : s.por = false) (hw : c.wellFormed = true)
    (h : s.input = c.bytes ++ rest) : step s = runCommand c (s.setInput rest) :=
  step_of_takeCommand s c rest hp (by rw [h, takeCommand_bytes_append c rest hw])

/-- A legal command runs by its meaning. -/
theorem runCommand_of_ok (c : Command) (i : Instr) (s : State) (h : decodeCommand c = .ok i) :
    runCommand c s = exec i s := by simp [runCommand, h]

/-- A well-formed command that decodes to nothing takes the fault `IllegalCommand`. -/
theorem runCommand_of_error (c : Command) (e : DecodeError) (s : State) (hw : c.wellFormed = true)
    (h : decodeCommand c = .error e) : runCommand c s = raise .illegalCommand (Desc.op c.desc) s := by
  cases hl : lookup c.desc with
  | some m => rw [decodeCommand_of_lookup c m hw hl] at h; cases h
  | none => simp [runCommand, decodeCommand_of_lookup_none c hw hl]

/-- Every step is one of five: a power-on reset, waiting, part of a command, a command run, an illegal command. -/
theorem step_cases (s : State) :
    (s.por = true ∧ step s = .next (powerOnReset s)) ∨
    (s.por = false ∧ s.input = [] ∧ step s = .next s) ∨
    (s.por = false ∧ takeCommand s.input = none ∧ step s = .refused .notACommand) ∨
    (∃ c rest i, s.por = false ∧ takeCommand s.input = some (c, rest) ∧ c.wellFormed = true ∧
      decodeCommand c = .ok i ∧ step s = exec i (s.setInput rest)) ∨
    (∃ c rest e, s.por = false ∧ takeCommand s.input = some (c, rest) ∧ c.wellFormed = true ∧
      decodeCommand c = .error e ∧ step s = raise .illegalCommand (Desc.op c.desc) (s.setInput rest)) := by
  by_cases hp : s.por = true
  · exact .inl ⟨hp, by simp [step, sequencer, hp]⟩
  have hp : s.por = false := by simpa using hp
  by_cases hi : s.input = []
  · exact .inr (.inl ⟨hp, hi, by simp [step, sequencer, hp, hi]⟩)
  rcases ht : takeCommand s.input with _ | ⟨c, rest⟩
  · exact .inr (.inr (.inl ⟨hp, rfl, by simp [step, sequencer, hp, hi, ht]⟩))
  · have hw := takeCommand_wellFormed _ _ _ ht
    have hs := step_of_takeCommand s c rest hp ht
    cases hd : decodeCommand c with
    | ok i => exact .inr (.inr (.inr (.inl ⟨c, rest, i, hp, rfl, hw, hd, hs.trans (runCommand_of_ok c i _ hd)⟩)))
    | error e => exact .inr (.inr (.inr (.inr ⟨c, rest, e, hp, rfl, hw, hd, hs.trans (runCommand_of_error c e _ hw hd)⟩)))

end Sys2Proof.Machine
end

