-- ==== Sys2Proof/Laws/Run.lean ====
section
/-! SUPPORT. The first lemmas about runs and about the terms of Safety.lean. -/

namespace Sys2Proof.Machine

/-- A response made by `mkResponseDesc` has the fields it was made from. -/
theorem Response.hasFields_mk (status op : Byte) (val : Word) (cnt : BitVec 64) (rpay : List Byte) :
    (Response.mk (mkResponseDesc status op val cnt) rpay).hasFields status op val cnt rpay :=
  ⟨status_mkResponseDesc _ _ _ _ [], op_mkResponseDesc _ _ _ _ [], zero_mkResponseDesc _ _ _ _ [],
    val_mkResponseDesc _ _ _ _ [], cnt_mkResponseDesc _ _ _ _ [], rfl⟩

/-- The response that `raise` gives. -/
theorem Response.isFault_mk (status op : Byte) : (Response.mk (mkResponseDesc status op 0#32 0#64) []).isFault status op :=
  Response.hasFields_mk _ _ _ _ _

/-- A run of one step more. -/
theorem runSteps_of_step (k : Nat) (s t : State) (h : step s = .next t) : runSteps (k + 1) s = runSteps k t := by
  rw [runSteps, h]

end Sys2Proof.Machine
end

