-- ==== Sys2Proof/Machine/Assembler.lean ====
section
/-! DEFINITION. The textual form of commands, 30_encoding.md R75 to R77, as a total reader of characters: one command a
line, mnemonics in capitals, `;` starts a comment. No part of the machine uses it; it says what programs written in the
spec's notation stand for. What R75 and R76 leave open is fixed in log entry 8. -/

namespace Sys2Proof.Asm

/-- The characters after leading blanks; which characters are blanks is the model's choice (log entry 8). -/
def skipBlanks (cs : List Char) : List Char := cs.dropWhile fun c => c == ' ' || c == '\t' || c == '\r'

/-- Only blanks or a comment are left (R75). -/
def atEnd (cs : List Char) : Bool :=
  match skipBlanks cs with
  | [] => true
  | c :: _ => c == ';'

/-- The characters a mnemonic or a number is made of. -/
def wordChar (c : Char) : Bool := c.isAlphanum || c == '.'

/-- The digits in the order of their values. -/
def numerals : List Char := "0123456789ABCDEF".toList

/-- The value of a digit of a base up to 16; a small letter counts as its capital (log entry 8). -/
def digit (base : Nat) (c : Char) : Option Nat := (numerals.take base).idxOf? c.toUpper

/-- The number that digits stand for in a base, none if a character is no digit of it. -/
def digits (base : Nat) : Nat → List Char → Option Nat
  | n, [] => some n
  | n, c :: cs => (digit base c).bind fun d => digits base (base * n + d) cs

/-- "a decimal or `0x` hexadecimal number" (R75). -/
def number : List Char → Option Nat
  | [] => none
  | ['0', 'x'] => none
  | '0' :: 'x' :: cs => digits 16 0 cs
  | cs => digits 10 0 cs

/-- `<seed>`: a number in `0..2^32-1`, and the characters after it (R75). -/
def seed (cs : List Char) : Option (Word × List Char) :=
  let cs := skipBlanks cs
  match number (cs.takeWhile wordChar) with
  | some n => if n < 2 ^ 32 then some (BitVec.ofNat 32 n, cs.dropWhile wordChar) else none
  | none => none

/-- The characters of a quoted text as ASCII bytes, no escapes, up to the closing mark (R76). -/
def textBytes : List Char → Option (List Byte × List Char)
  | [] => none
  | '"' :: cs => some ([], cs)
  | c :: cs =>
    if c.toNat < 128 then (textBytes cs).map fun r => (BitVec.ofNat 8 c.toNat :: r.1, r.2) else none

/-- The hexadecimal digits up to the closing mark. R76 says "spaces allowed" and not where: here a space may stand
anywhere, also between the two digits of one byte (DESIGN CHOICE, log entry 8). -/
def hexDigits : List Char → Option (List Nat × List Char)
  | [] => none
  | '"' :: cs => some ([], cs)
  | ' ' :: cs => hexDigits cs
  | c :: cs => (digit 16 c).bind fun d => (hexDigits cs).map fun r => (d :: r.1, r.2)

/-- "an even number of hexadecimal digits, two per byte, first byte first" (R76). -/
def pairDigits : List Nat → Option (List Byte)
  | [] => some []
  | [_] => none
  | hi :: lo :: ds => (pairDigits ds).map fun bs => BitVec.ofNat 8 (16 * hi + lo) :: bs

/-- The bytes of `x"hex"` after its opening mark, and the characters after its closing mark (R76). -/
def hexBytes (cs : List Char) : Option (List Byte × List Char) :=
  match hexDigits cs with
  | some (ds, rest) => (pairDigits ds).map fun bs => (bs, rest)
  | none => none

/-- `<bytes>`: `"text"`, `x"hex"` or the shorthand `x00..0E`, and the characters after it (R76). -/
def byteLit (cs : List Char) : Option (List Byte × List Char) :=
  match skipBlanks cs with
  | '"' :: cs => textBytes cs
  | 'x' :: '"' :: cs => hexBytes cs
  | 'x' :: a :: b :: '.' :: '.' :: c :: d :: cs =>
    match digits 16 0 [a, b], digits 16 0 [c, d] with
    | some lo, some hi =>
      if lo ≤ hi then some ((List.range (hi + 1 - lo)).map fun i => BitVec.ofNat 8 (lo + i), cs) else none
    | _, _ => none
  | _ => none

/-- `<seed>, <bytes>` (R75, R77). Blanks may stand before and after the comma or be missing (DESIGN CHOICE, log entry 8). -/
def seedAndBytes (cs : List Char) : Option ((Word × List Byte) × List Char) :=
  match seed cs with
  | some (w, cs) =>
    match skipBlanks cs with
    | ',' :: cs => (byteLit cs).map fun r => ((w, r.1), r.2)
    | _ => none
  | none => none

/-- `.desc 0x<32 hex digits>` followed by `.pay <bytes>`, for illegal encodings (R75). The pair is returned as it is written:
where `.pay`, or its absence (an empty payload), does not give `LEN` bytes, the answer is the pair that is no command (R78,
U6), and not no answer (DESIGN CHOICE, log entry 8). -/
def rawCommand (cs : List Char) : Option (Command × List Char) :=
  let cs := skipBlanks cs
  let w := cs.takeWhile wordChar
  let rest := cs.dropWhile wordChar
  match number w with
  | some n =>
    if w.length = 34 ∧ w.take 2 = ['0', 'x'] then
      let next := skipBlanks rest
      if next.takeWhile wordChar = ['.', 'p', 'a', 'y'] then
        (byteLit (next.dropWhile wordChar)).map fun r => (⟨BitVec.ofNat 128 n, r.1⟩, r.2)
      else some (⟨BitVec.ofNat 128 n, []⟩, rest)
    else none
  | none => none

/-- Operands read, and nothing but a comment after them. -/
def ended {α : Type} (r : Option (α × List Char)) (f : α → List Command) : Option (List Command) :=
  match r with
  | some (x, cs) => if atEnd cs then some (f x) else none
  | none => none

/-- The commands a list of instructions stands for. -/
def commands (is : List Instr) : List Command := is.map encodeCommand

/-- The commands of one line: none for an empty line or a comment, one for a command, more for `HASH` (R75, R77). No
answer where the line is not of the spec's form. A mnemonic ends where its letters and digits end, so no blank need stand
before a literal that begins with a quotation mark (DESIGN CHOICE, log entry 8). -/
def line (cs : List Char) : Option (List Command) :=
  let cs := skipBlanks cs
  if atEnd cs then some []
  else
    let rest := cs.dropWhile wordChar
    match cs.takeWhile wordChar with
    | ['N', 'E', 'W'] => ended (seed rest) fun w => commands [.new w]
    | ['R', 'E', 'S', 'E', 'T'] => ended (some ((), rest)) fun _ => commands [.reset]
    | ['W', 'R', 'I', 'T', 'E'] => ended (byteLit rest) fun b => commands [.write b]
    | ['S', 'U', 'M', '3', '2'] => ended (some ((), rest)) fun _ => commands [.sum32]
    | ['S', 'U', 'M'] => ended (byteLit rest) fun b => commands [.sum b]
    | ['S', 'I', 'Z', 'E'] => ended (some ((), rest)) fun _ => commands [.size]
    | ['B', 'L', 'O', 'C', 'K', 'S', 'I', 'Z', 'E'] => ended (some ((), rest)) fun _ => commands [.blocksize]
    | ['C', 'H', 'E', 'C', 'K', 'S', 'U', 'M'] =>
      ended (seedAndBytes rest) fun p => commands [.checksum p.1 p.2]
    | ['D', 'I', 'G', 'E', 'S', 'T'] => ended (some ((), rest)) fun _ => commands Instr.pseudoDigest
    | ['H', 'A', 'S', 'H'] => ended (seedAndBytes rest) fun p => commands (Instr.pseudoHash p.1 p.2)
    | ['.', 'd', 'e', 's', 'c'] => ended (rawCommand rest) fun c => [c]
    | _ => none

/-- A text cut at its line ends. -/
def lines : List Char → List (List Char)
  | [] => [[]]
  | c :: cs =>
    match c == '\n', lines cs with
    | true, ls => [] :: ls
    | false, l :: ls => (c :: l) :: ls
    | false, [] => [[c]]

/-- The commands of a text, in order; no answer if a line has none of the spec's forms (R75). -/
def assemble (text : List Char) : Option (List Command) := ((lines text).mapM line).map List.flatten

end Sys2Proof.Asm
end

