-- ==== Sys2Proof/Tests/Slice0.lean ====
section
/-! SUPPORT. Tests and witnesses. Expected values are those of 95_test_vectors.md, whose section a comment names, or of the
spec's worked examples. A theorem `witness_<name>` shows a concrete input that meets the hypotheses of
`Obligations.<name>` (a clause of it, where a suffix says which). -/

namespace Sys2Proof.Tests

open Sys2Proof Sys2Proof.Machine

/-! ### Small inputs -/

/-- Bytes from numbers. -/
def bytes (ns : List Nat) : List Byte := ns.map (BitVec.ofNat 8)

/-- The 16 bytes of a descriptor from its first ones, the rest zero. -/
def cd (ns : List Nat) : List Byte := bytes (ns ++ List.replicate (16 - ns.length) 0)

/-- The bytes `00 01 02 ..`, `n` of them, from `a`. -/
def ascending (a n : Nat) : List Byte := (List.range n).map fun i => BitVec.ofNat 8 (a + i)

/-- A constructed hasher with the accumulators of a fresh one. -/
def ctx (seed : Word) (len : BitVec 64) (cnt : BitVec 4) (pend : List Byte) : State :=
  { State.reset with valid := true, seed := seed, v := init seed, len := len, cnt := cnt,
                     buf := Memory.writeBytes [] 0 pend }

/-- The next state, if there is one. -/
def after : Host.Outcome State Fault Refusal → Option State
  | .next t => some t
  | .fault _ => none
  | .refused _ => none

/-- The bytes of the responses, if there is a next state. -/
def replies (o : Host.Outcome State Fault Refusal) : Option (List Byte) :=
  (after o).map fun t => t.responses.flatMap Response.bytes

/-- The instruction that bytes decode to, if they do and nothing is left. -/
def decoded (bs : List Byte) : Option Instr :=
  match decode bs with
  | .ok (i, []) => some i
  | .ok (_, _ :: _) => none
  | .error _ => none

/-! ### Well-formedness: ill-formed terms are refused -/

theorem test_payload_of_two_pow_64_is_ill_formed :
    (Instr.write (List.replicate (2 ^ 64) 0#8)).wellFormed = false ∧
      (Instr.sum (List.replicate (2 ^ 64) 0#8)).wellFormed = false ∧
      (Instr.checksum 1#32 (List.replicate (2 ^ 64) 0#8)).wellFormed = false := by
  refine ⟨?_, ?_, ?_⟩ <;> (rw [Instr.wellFormed, Instr.payload, List.length_replicate]; rfl)

theorem test_payload_shorter_than_len_is_no_command :
    (Command.mk 0x00000000000000030000000000000003#128 (bytes [0x61, 0x62])).wellFormed = false := by decide

theorem test_payload_longer_than_len_is_no_command :
    (Command.mk 0x00000000000000000000000000000001#128 (bytes [0x61])).wellFormed = false := by decide

theorem test_opcode_rows_do_not_overlap :
    opcodeTable.Pairwise (fun r q => r.pat &&& q.mask ≠ q.pat ∨ q.pat &&& r.mask ≠ r.pat) := by decide

/-! ### Decoding (2.12, 2.11) -/

theorem test_decode_new : decoded (cd [0x01, 0, 0, 0, 0xEF, 0xBE, 0xAD, 0xDE]) = some (.new 0xDEADBEEF#32) := by decide

theorem test_decode_reset : decoded (cd [0x02]) = some .reset := by decide

theorem test_decode_write : decoded (cd [0x03, 0, 0, 0, 0, 0, 0, 0, 3] ++ bytes [0x61, 0x62, 0x63]) =
    some (.write (bytes [0x61, 0x62, 0x63])) := by decide

theorem test_decode_sum32 : decoded (cd [0x04]) = some .sum32 := by decide

theorem test_decode_sum : decoded (cd [0x05, 0, 0, 0, 0, 0, 0, 0, 2] ++ bytes [0xAA, 0xBB]) =
    some (.sum (bytes [0xAA, 0xBB])) := by decide

theorem test_decode_size : decoded (cd [0x06]) = some .size := by decide

theorem test_decode_blocksize : decoded (cd [0x07]) = some .blocksize := by decide

theorem test_decode_checksum :
    decoded (cd [0x08, 0, 0, 0, 0xFF, 0xFF, 0xFF, 0xFF, 2] ++ bytes [0x00, 0x01]) =
      some (.checksum 0xFFFFFFFF#32 (bytes [0x00, 0x01])) := by decide

/-- A payload of 300 bytes: the second length byte counts (2.12). -/
theorem test_descriptor_of_300_bytes :
    encodeDesc (.write (List.replicate 300 0#8)) = 0x000000000000012C0000000000000003#128 := by
  rw [encodeDesc, Instr.payload, List.length_replicate]; decide

theorem test_reserved_opcodes_are_illegal :
    lookup 0x00#128 = none ∧ lookup 0x09#128 = none ∧ lookup 0xFF#128 = none := by decide

theorem test_reserved_fields_are_illegal :
    lookup 0x00000000000000010000000100000001#128 = none ∧ lookup 0x00010001#128 = none ∧
      lookup 0x0000000100000002#128 = none ∧ lookup 0x00000000000000010000000100000003#128 = none ∧
      lookup 0x0000000500000004#128 = none ∧ lookup 0x00000104#128 = none ∧
      lookup 0x00000000000000010000000000000006#128 = none ∧ lookup 0x80000008#128 = none := by decide

theorem test_decode_waits_for_the_payload :
    decode (cd [0x03, 0, 0, 0, 0, 0, 0, 0, 3] ++ bytes [0x61, 0x62]) = .error .incomplete := by decide

/-! ### The units (2.1 to 2.7) -/

theorem test_rotations : rotl32 0x12345678#32 13 = 0x8ACF0246#32 ∧ rotl32 0x80000001#32 17 = 0x00030000#32 ∧
    rotl32 0xDEADBEEF#32 11 = 0x6DF77EF5#32 ∧ rotl32 0x00000001#32 31 = 0x80000000#32 := by decide

theorem test_word_at_offset_one : le32At (bytes [0x11, 0x22, 0x33, 0x44, 0x55]) 1 = 0x55443322#32 := by decide

theorem test_init_wraps : init 0xFFFFFFFF#32 = ⟨0x24234427#32, 0x85EBCA76#32, 0xFFFFFFFF#32, 0x61C8864E#32⟩ := by decide

theorem test_round : laneRound 0x12345678#32 0x9ABCDEF0#32 = 0x940B3397#32 := by decide

theorem test_block_step_lanes : blockStep ⟨0#32, 0#32, 0#32, 0#32⟩ (bytes [1, 0, 0, 0, 2, 0, 0, 0, 3, 0, 0, 0, 4, 0, 0, 0]) =
    ⟨0x8DF8C7AD#32, 0x2CBB6F5A#32, 0x58EBB0B8#32, 0xF7AE5865#32⟩ := by decide

theorem test_tail_steps : tailWord 0x165667BC#32 0x64636261#32 = 0x51B95207#32 ∧
    tailByte 0xFFFFFFFF#32 0xFF#8 = 0x4B5AD200#32 := by decide

theorem test_tail_words_then_bytes : tail 0x165667C0#32 (ascending 0 15) = 0x89394669#32 := by decide

theorem test_fmix : fmix 0x12345678#32 = 0x7979F230#32 ∧ fmix 0x80000000#32 = 0x22CC2014#32 := by decide

theorem test_merge : merge ⟨0xF817BCCB#32, 0x0222719B#32, 0xD4B0C0A4#32, 0xDEBB7574#32⟩ = 0xE3460F50#32 := by decide

theorem test_blocks_of_49 : blocks (init 0#32) (ascending 0 49) =
    (⟨0xD4022F70#32, 0x23A70BA0#32, 0x4E127BE7#32, 0x5DDE22AF#32⟩, 48) := by decide

/-- An input of `2^32` bytes does not take the short start value (R108). -/
theorem test_start_value_reads_the_whole_length : startValue 1#32 ⟨1#32, 1#32, 1#32, 1#32⟩ (2 ^ 32) = 0x00041082#32 := by
  decide

/-! ### One command each (S1 to S5, 2.8 to 2.11, R126) -/

theorem test_new : (after (exec (.new 1#32) (ctx 7#32 3#64 3#4 (bytes [1, 2, 3])))).map (fun t => (t.valid, t.seed, t.v)) =
    some (true, 1#32, ⟨0x24234429#32, 0x85EBCA78#32, 0x00000001#32, 0x61C88650#32⟩) := by decide

theorem test_new_empties_the_buffer : (after (exec (.new 1#32) (ctx 7#32 3#64 3#4 (bytes [1, 2, 3])))).map
    (fun t => (t.len, t.cnt, t.pend, t.buf.read 2)) = some (0#64, 0#4, [], 3#8) := by decide

theorem test_reset : (after (exec .reset { ctx 0#32 49#64 1#4 (bytes [0x30]) with
      v := ⟨0xD4022F70#32, 0x23A70BA0#32, 0x4E127BE7#32, 0x5DDE22AF#32⟩ })).map (fun t => (t.seed, t.v, t.len, t.cnt)) =
    some (0#32, ⟨0x24234428#32, 0x85EBCA77#32, 0x00000000#32, 0x61C8864F#32⟩, 0#64, 0#4) := by decide

theorem test_reset_before_new : replies (exec .reset State.reset) = some (cd [0x02, 0x02]) := by decide

/-- R126 (2), PROG2 step 4. -/
theorem test_write_fills_one_block : (after (exec (.write (bytes [0x20, 0x70, 0x72, 0x65, 0x6D, 0x69, 0x65, 0x72, 0x20, 0x77, 0x6F]))
      (ctx 1#32 5#64 5#4 (bytes [0x4E, 0x65, 0x70, 0x61, 0x6C])))).map (fun t => (t.v, t.len, t.cnt)) =
    some (⟨0xC9179F6D#32, 0xB7044A98#32, 0x8C7106D1#32, 0x8FC5EC7D#32⟩, 16#64, 0#4) := by decide

/-- R126 (3), PROG3 step 3: two direct blocks at odd offsets and one byte left. -/
theorem test_write_direct_blocks : (after (exec (.write (ascending 15 34)) (ctx 0#32 15#64 15#4 (ascending 0 15)))).map
      (fun t => (t.v, t.len, t.cnt, t.pend)) =
    some (⟨0xD4022F70#32, 0x23A70BA0#32, 0x4E127BE7#32, 0x5DDE22AF#32⟩, 49#64, 1#4, bytes [0x30]) := by decide

/-- S3, R127: the response descriptor and no payload. -/
theorem test_sum32 : replies (exec .sum32 (ctx 1#32 3#64 3#4 (bytes [0x61, 0x62, 0x63]))) =
    some (cd [0x00, 0x04, 0, 0, 0xFF, 0xA8, 0x3D, 0xAA]) := by decide

theorem test_sum32_before_new : replies (exec .sum32 State.reset) = some (cd [0x02, 0x04]) := by decide

/-- 2.10: the digest bytes are big-endian after the prefix, and the prefix is not hashed. -/
theorem test_sum : replies (exec (.sum (bytes [0xF5, 0x14, 0x70, 0x6F])) (ctx 1#32 1#64 1#4 (bytes [0x61]))) =
    some (cd [0x00, 0x05, 0, 0, 0, 0, 0, 0, 8] ++ bytes [0xF5, 0x14, 0x70, 0x6F, 0xF5, 0x14, 0x70, 0x6F]) := by decide

theorem test_size : replies (exec .size State.reset) = some (cd [0x00, 0x06, 0, 0, 4]) := by decide

theorem test_blocksize : replies (exec .blocksize State.reset) = some (cd [0x00, 0x07, 0, 0, 4]) := by decide

/-- S2, legal before `NEW` (2.11). -/
theorem test_checksum_before_new : (after (exec (.checksum 1#32 (bytes [0x61])) State.reset)).map
      (fun t => (t.responses.flatMap Response.bytes, t.valid)) =
    some (cd [0x00, 0x08, 0, 0, 0x6F, 0x70, 0x14, 0xF5], false) := by decide

/-- S5 and table 2.8, row 49, seed 0. -/
theorem test_known_answers :
    hash32 1#32 (bytes [0x4E, 0x65, 0x70, 0x61, 0x6C, 0x20, 0x70, 0x72, 0x65, 0x6D, 0x69, 0x65, 0x72, 0x20, 0x77, 0x6F, 0x6E, 0x27, 0x74,
        0x20, 0x72, 0x65, 0x73, 0x69, 0x67, 0x6E, 0x2E]) = 0x4A9C59C8#32 ∧
      hash32 0#32 (ascending 0 49) = 0xFE24C9B1#32 := by decide

/-! ### One step -/

/-- 2.11: an illegal command is consumed with its payload and changes nothing. -/
theorem test_step_illegal : after (step { ctx 1#32 1#64 1#4 (bytes [0x61]) with
      input := cd [0x01, 0, 0, 0, 1, 0, 0, 0, 1] ++ bytes [0x7A, 0x55] }) =
    some { ctx 1#32 1#64 1#4 (bytes [0x61]) with input := [0x55#8], responses := [⟨0x0101#128, []⟩] } := by decide

/-- The command that `withFetchWord` places is the one the next step runs, with a payload of zeros. -/
theorem test_with_fetch_word : after (step (State.reset.withFetchWord 128 0x00000000000000010000000100000008)) =
    after (exec (.checksum 1#32 [0#8]) State.reset) := by decide

theorem test_power_on_reset : (after (step { ctx 1#32 1#64 1#4 (bytes [0x61]) with por := true, input := cd [0x06] })).map
    (fun t => (t.valid, t.por, t.input, t.responses)) = some (false, false, [], []) := by decide

/-! ### The textual form (R75 to R77) -/

theorem test_assemble_commands : Asm.assemble "NEW 0xDEADBEEF ; seed\nWRITE \"a'\"\n\nCHECKSUM 1, x00..02".toList =
    some [encodeCommand (.new 0xDEADBEEF#32), encodeCommand (.write (bytes [0x61, 0x27])),
      encodeCommand (.checksum 1#32 (bytes [0, 1, 2]))] := by decide

theorem test_assemble_raw_and_pseudo : Asm.assemble
      ".desc 0x00000000000000010000000100000001 .pay x\"7A\"\nDIGEST\nHASH 1, \"\"".toList =
    some [⟨0x00000000000000010000000100000001#128, [0x7A#8]⟩, encodeCommand (.sum []), encodeCommand (.new 1#32),
      encodeCommand (.write []), encodeCommand .sum32] := by decide

/-- Where blanks may stand, and an ill-formed raw pair (log entry 8). -/
theorem test_assemble_choices :
    Asm.assemble "WRITE\"a\"\nCHECKSUM 1 ,x\"00\"\n.desc 0x0000000000000002000000000000000f .pay\"a\"".toList =
      some [encodeCommand (.write [0x61#8]), encodeCommand (.checksum 1#32 [0#8]), ⟨0x0000000000000002000000000000000F#128, [0x61#8]⟩] ∧
    Asm.line "WRITEx\"00\"".toList = none := by decide

/-- R76: spaces anywhere (log entry 8), an even number of digits. -/
theorem test_hex_spaces_and_even_digits : Asm.byteLit " x\"F5 1 4 70\" ;".toList = some (bytes [0xF5, 0x14, 0x70], [' ', ';']) ∧
    Asm.byteLit "x\"F5 1\"".toList = none := by decide

/-! ### Witnesses: encoding and decoding -/

theorem witness_DecodeEncodeRoundTrip : (Instr.checksum 5#32 [1#8]).wellFormed = true := by decide

/-- The bound itself: `2^64 - 1` payload bytes. -/
theorem witness_DecodeEncodeRoundTrip_longest : (Instr.write (List.replicate (2 ^ 64 - 1) 0#8)).wellFormed = true := by
  rw [Instr.wellFormed, Instr.payload, List.length_replicate]; rfl

theorem witness_DecodedPairIsItsEncoding :
    (decodeCommand ⟨0x00000000000000010000000500000008#128, [9#8]⟩).toOption = some (.checksum 5#32 [9#8]) := by decide

theorem witness_DecodingFollowsOpcodeTable_row :
    let r : Row := ⟨.new, 0xFFFFFFFFFFFFFFFF00000000FFFFFFFF#128, 0x00000000000000000000000000000001#128⟩
    let c : Command := ⟨0xFFFFFFFF00000001#128, []⟩
    r ∈ opcodeTable ∧ c.wellFormed = true ∧ c.desc &&& r.mask = r.pat := by decide

theorem witness_DecodingFollowsOpcodeTable_no_row :
    let c : Command := ⟨0#128, []⟩
    c.wellFormed = true ∧ ∀ r ∈ opcodeTable, c.desc &&& r.mask ≠ r.pat := by decide

/-! ### Witnesses: the sequencer -/

theorem witness_StepRunsDecodedCommand :
    let s := { State.reset with input := cd [0x03, 0, 0, 0, 0, 0, 0, 0, 1] ++ [0x61#8, 0x04#8] }
    s.por = false ∧ (decode s.input).toOption = some (.write [0x61#8], [0x04#8]) := by decide

/-- One illegal command for each cause, the first and last reserved opcodes among them, and two legal ones. -/
theorem witness_IllegalCommandExactly : ∀ c ∈ ([⟨0x00#128, []⟩, ⟨0x09#128, []⟩, ⟨0xFF#128, []⟩, ⟨0x80000008#128, []⟩,
      ⟨0x0000000500000004#128, []⟩, ⟨0x00000000000000010000000000000001#128, [0x7A#8]⟩,
      ⟨0xFFFFFFFF00000001#128, []⟩, ⟨0x00000000000000010000000000000003#128, [0x7A#8]⟩] : List Command),
    c.wellFormed = true ∧ { State.reset with input := c.bytes ++ [1#8] }.por = false ∧
      { State.reset with input := c.bytes ++ [1#8] }.input = c.bytes ++ [1#8] := by decide

theorem witness_IllegalCommandExactly_illegal : ∀ d ∈ ([0x00#128, 0x09#128, 0xFF#128, 0x80000008#128, 0x0000000500000004#128,
      0x00000000000000010000000000000001#128] : List Desc),
    let op := d.extractLsb' 0 8
    (op = 0x00#8 ∨ 0x09#8 ≤ op) ∨ d.extractLsb' 8 24 ≠ 0#24 ∨
      (d.extractLsb' 32 32 ≠ 0#32 ∧ op ≠ 0x01#8 ∧ op ≠ 0x08#8) ∨
      (d.extractLsb' 64 64 ≠ 0#64 ∧
        (op = 0x01#8 ∨ op = 0x02#8 ∨ op = 0x04#8 ∨ op = 0x06#8 ∨ op = 0x07#8)) := by
  intro d hd
  simp only [List.mem_cons, List.not_mem_nil, or_false] at hd
  rcases hd with rfl | rfl | rfl | rfl | rfl | rfl <;> decide

theorem witness_IllegalCommandExactly_legal : ∀ d ∈ ([0xFFFFFFFF00000001#128, 0xFFFFFFFFFFFFFFFF0000000000000003#128] : List Desc),
    let op := d.extractLsb' 0 8
    ¬ ((op = 0x00#8 ∨ 0x09#8 ≤ op) ∨ d.extractLsb' 8 24 ≠ 0#24 ∨
      (d.extractLsb' 32 32 ≠ 0#32 ∧ op ≠ 0x01#8 ∧ op ≠ 0x08#8) ∨
      (d.extractLsb' 64 64 ≠ 0#64 ∧
        (op = 0x01#8 ∨ op = 0x02#8 ∨ op = 0x04#8 ∨ op = 0x06#8 ∨ op = 0x07#8))) := by
  intro d hd
  simp only [List.mem_cons, List.not_mem_nil, or_false] at hd
  rcases hd with rfl | rfl <;> decide

/-- A fault and a successful `SUM`, whose responses meet the inner conditions. -/
theorem witness_EveryCommandAnswersOnce :
    let c : Command := ⟨0x00000000000000010000000000000005#128, [0xAA#8]⟩
    let s := { ctx 1#32 0#64 0#4 [] with input := c.bytes ++ [2#8] }
    let z := { State.reset with input := c.bytes ++ [2#8] }
    c.wellFormed = true ∧ s.por = false ∧ s.input = c.bytes ++ [2#8] ∧ z.por = false ∧ z.input = c.bytes ++ [2#8] ∧
      (after (step s)).map (fun t => t.responses.map fun r => (r.rd.extractLsb' 0 8, r.rpay.length)) = some [(0x00#8, 5)] ∧
      (after (step z)).map (fun t => t.responses.map fun r => r.rd.extractLsb' 0 8) = some [0x02#8] := by decide

/-- The limits of `WRITE` (2.9), on both sides, and the status before `NEW`. -/
theorem witness_LegalCommandStatus :
    (ctx 1#32 0xFFFFFFFFFFFFFFFF#64 15#4 []).len.toNat + (Instr.write []).payload.length = 2 ^ 64 - 1 ∧
      (ctx 1#32 0xFFFFFFFFFFFFFFFF#64 15#4 []).len.toNat + (Instr.write [0x61#8]).payload.length > 2 ^ 64 - 1 ∧
      State.reset.valid = false ∧ (Instr.write []).mnemonic = .write := by decide

theorem witness_FaultsArePrecise :
    let s := { State.reset with input := cd [0x04] ++ [7#8] }
    let r : Response := ⟨0x0402#128, []⟩
    s.por = false ∧ after (step s) = some { s with input := [7#8], responses := s.responses ++ [r] } ∧
      r.rd.extractLsb' 0 8 ≠ 0x00#8 := by decide

theorem witness_PowerOnResetAndWaiting :
    { State.reset with por := true, input := cd [0x06] }.por = true ∧ State.reset.por = false ∧ State.reset.input = [] := by
  decide

/-- Part of a command: its first byte only, and all but its last byte. -/
theorem witness_PowerOnResetAndWaiting_part :
    let c : Command := ⟨0x00000000000000010000000000000003#128, [0x61#8]⟩
    c.wellFormed = true ∧ 0 < 1 ∧ 1 < c.bytes.length ∧ 0 < 16 ∧ 16 < c.bytes.length ∧ c.bytes.length = 17 ∧
      { State.reset with input := c.bytes.take 16 }.por = false := by decide

/-! ### Witnesses: the commands -/

/-- For every opcode a well-formed command with other fields zero, and one with `RSV` not zero. -/
theorem witness_decode_clauses : ∀ op ∈ ([0x01#8, 0x02#8, 0x03#8, 0x04#8, 0x05#8, 0x06#8, 0x07#8, 0x08#8] : List Byte),
    (Command.mk (mkDesc op 0#24 0#32 0#64) []).wellFormed = true ∧ (mkDesc op 0#24 0#32 0#64).extractLsb' 0 8 = op ∧
      (Command.mk (mkDesc op 1#24 0#32 0#64) []).wellFormed = true ∧ (mkDesc op 1#24 0#32 0#64).extractLsb' 0 8 = op := by
  decide

/-- `VALID` both ways, for the clauses of `ResetRestartsHasher`, `WriteRefusals`, `Sum32ReturnsDigest`,
`SumReturnsPrefixAndDigest`. -/
theorem witness_valid_clauses : (ctx 1#32 0#64 0#4 []).valid = true ∧ State.reset.valid = false := by decide

theorem witness_WriteRefusals_overflow :
    let s := ctx 1#32 0xFFFFFFFFFFFFFFF0#64 0#4 []
    s.valid = true ∧ s.len.toNat + (ascending 0 16).length > 2 ^ 64 - 1 ∧ s.len.toNat + (ascending 0 15).length ≤ 2 ^ 64 - 1 := by
  decide

/-- `CNT + L = 15`; and an empty `WRITE` at the largest length and count. -/
theorem witness_WriteShortPathAppends :
    let s := ctx 1#32 14#64 14#4 (ascending 0 14)
    let z := ctx 1#32 0xFFFFFFFFFFFFFFFF#64 15#4 (ascending 0 15)
    (s.valid = true ∧ s.buf.wf ∧ s.len.toNat + [0x61#8].length ≤ 2 ^ 64 - 1 ∧ [0x61#8].length ≤ 15 - s.cnt.toNat) ∧
      (z.valid = true ∧ z.buf.wf ∧ z.len.toNat + ([] : List Byte).length ≤ 2 ^ 64 - 1 ∧
        ([] : List Byte).length ≤ 15 - z.cnt.toNat) := by decide

/-- `CNT + L = 16` with `f = 1`; and `CNT = 0`, `L = 17`. -/
theorem witness_WriteLongPathProcessesBlocks :
    let s := ctx 1#32 15#64 15#4 (ascending 0 15)
    let z := ctx 1#32 0#64 0#4 []
    (s.valid = true ∧ s.buf.wf ∧ s.len.toNat + [0x61#8].length ≤ 2 ^ 64 - 1 ∧ 16 ≤ s.cnt.toNat + [0x61#8].length) ∧
      (z.valid = true ∧ z.buf.wf ∧ z.len.toNat + (ascending 0 17).length ≤ 2 ^ 64 - 1 ∧
        16 ≤ z.cnt.toNat + (ascending 0 17).length) := by decide

/-- Prefixes at the limit of `SUM` and past it (2.10). -/
theorem witness_SumReturnsPrefixAndDigest_limit :
    (List.replicate (2 ^ 64 - 5) 0#8).length ≤ 2 ^ 64 - 5 ∧ (List.replicate (2 ^ 64 - 4) 0#8).length > 2 ^ 64 - 5 := by
  rw [List.length_replicate, List.length_replicate]; exact ⟨Nat.le_refl _, by norm_num⟩

theorem witness_RegistersWrittenOnlyByTheirCommands : ∀ i ∈ ([.new 1#32, .write [1#8], .sum32] : List Instr),
    (after (exec i (ctx 1#32 0#64 0#4 []))).isSome = true := by decide

/-! ### Witnesses: the datapath -/

theorem witness_RotationMovesEveryBit : 0 < 1 ∧ 1 < 32 ∧ 0 < 31 ∧ 31 < 32 := by decide

theorem witness_ByteOrders : 1 + 4 ≤ (bytes [0x11, 0x22, 0x33, 0x44, 0x55]).length := by decide

theorem witness_BlocksCompose : ([] : List Byte).length % 16 = 0 ∧ (ascending 0 16).length % 16 = 0 := by decide

theorem witness_StartValueBySixteenBytes : 0 < 16 ∧ 15 < 16 ∧ 16 ≤ 16 ∧ 16 ≤ 2 ^ 32 := by decide

/-! ### Witnesses: the whole machine -/

/-- A hasher that has absorbed two bytes. -/
theorem witness_represents : (ctx 1#32 2#64 2#4 [5#8, 6#8]).Represents [5#8, 6#8] :=
  ⟨by decide, by decide, by decide, by decide, fun _ => rfl⟩

theorem witness_StepKeepsInvariant :
    let s := { ctx 1#32 2#64 2#4 [5#8, 6#8] with input := cd [0x03, 0, 0, 0, 0, 0, 0, 0, 1] ++ [7#8] }
    s.Inv ∧ (after (step s)).isSome = true :=
  ⟨⟨by decide, fun _ => ⟨[5#8, 6#8], by decide, by decide, by decide, by decide, fun _ => rfl⟩⟩, by decide⟩

theorem witness_ContextStandsForInput :
    let s := ctx 1#32 2#64 2#4 [5#8, 6#8]
    s.valid = true ∧ s.buf.wf ∧ s.Represents [5#8, 6#8] ∧ (after (exec (.write [7#8]) s)).isSome = true ∧
      (after (exec (.new 3#32) s)).isSome = true :=
  ⟨by decide, by decide, witness_represents, by decide, by decide⟩

/-- Between `NEW` and `SUM32`: a write, an illegal command, an empty write, a checksum. -/
def between : List Command :=
  [⟨0x00000000000000010000000000000003#128, [0x61#8]⟩, ⟨0x09#128, []⟩, ⟨0x03#128, []⟩,
    ⟨0x00000000000000010000000000000008#128, [0x62#8]⟩]

theorem witness_between_continues : ∀ c ∈ between, continues c := by
  have h : ∀ c ∈ between, c.wellFormed = true ∧ (decodeCommand c).toOption.map Instr.mnemonic ≠ some .new ∧
      (decodeCommand c).toOption.map Instr.mnemonic ≠ some .reset := by decide
  intro c hc
  obtain ⟨hw, hn, hr⟩ := h c hc
  exact ⟨hw, fun seed hd => hn (by rw [hd]; rfl), fun hd => hr (by rw [hd]; rfl)⟩

/-- Both ways to begin: a `NEW`, and a `RESET` of a hasher with the seed. -/
theorem witness_StreamingEqualsOneShot :
    let s := { State.reset with input := encode (.new 1#32) ++ channelBytes between ++ encode .sum32 ++ [] }
    let z := { ctx 1#32 2#64 2#4 [5#8, 6#8] with input := encode .reset ++ channelBytes between ++ encode .sum32 ++ [] }
    s.por = false ∧ s.buf.wf ∧ z.por = false ∧ z.buf.wf ∧ z.valid = true ∧ z.seed = 1#32 ∧
      (between.flatMap chunk).length < 2 ^ 64 ∧
      s.input = encode (.new 1#32) ++ channelBytes between ++ encode .sum32 ++ [] ∧
      z.input = encode .reset ++ channelBytes between ++ encode .sum32 ++ [] :=
  ⟨rfl, by decide, rfl, by decide, rfl, rfl, by decide, rfl, rfl⟩

theorem witness_ChecksumAgreesWithHash :
    let is := Instr.pseudoHash 1#32 [0x61#8] ++ Instr.pseudoDigest ++ [Instr.checksum 1#32 [0x61#8]]
    let s := { State.reset with input := is.flatMap encode ++ [] }
    s.por = false ∧ s.buf.wf ∧ [0x61#8].length < 2 ^ 64 ∧ s.input = is.flatMap encode ++ [] :=
  ⟨rfl, by decide, by decide, rfl⟩

/-- Two states that differ in a stale cell only; and two unconstructed ones that differ in every register. -/
theorem witness_HiddenStateIsUnobservable :
    let s := ctx 1#32 1#64 1#4 [5#8, 6#8]
    let t := ctx 1#32 1#64 1#4 [5#8, 7#8, 8#8]
    let u := { ctx 9#32 9#64 9#4 [9#8] with valid := false }
    (s.buf.wf ∧ t.buf.wf ∧ s.SameView t ∧ s.responses = t.responses ∧ s.input = t.input ∧ s.por = t.por) ∧ s ≠ t ∧
      (State.reset.buf.wf ∧ u.buf.wf ∧ State.reset.SameView u ∧ State.reset.responses = u.responses ∧
        State.reset.input = u.input ∧ State.reset.por = u.por) ∧ State.reset ≠ u :=
  ⟨⟨by decide, by decide, ⟨rfl, fun _ => ⟨rfl, rfl, rfl, rfl, by decide⟩⟩, rfl, rfl, rfl⟩, by decide,
    ⟨by decide, by decide, ⟨rfl, fun h => nomatch h⟩, rfl, rfl, rfl⟩, by decide⟩

theorem witness_ResetEqualsFreshNew :
    let s := ctx 1#32 1#64 1#4 [5#8]
    s.valid = true ∧ s.buf.wf ∧ State.reset.buf.wf ∧ (after (exec .reset s)).isSome = true ∧
      (after (exec (.new s.seed) State.reset)).isSome = true := by decide

/-- `SUM32`, an empty `WRITE`, `SUM32` on a hasher that has absorbed "abc" (S3). -/
theorem witness_IdempotentObservation :
    let c : Command := ⟨0x03#128, []⟩
    let s := { ctx 1#32 3#64 3#4 (bytes [0x61, 0x62, 0x63]) with input := encode .sum32 ++ channelBytes [c] ++ encode .sum32 ++ [] }
    let r : Response := ⟨0xAA3DA8FF00000400#128, []⟩
    s.por = false ∧ (after (runSteps 3 s)).map (fun t => t.responses) = some (s.responses ++ [r] ++ [⟨0x0300#128, []⟩] ++ [r]) ∧
      ∀ p ∈ [c].zip [(⟨0x0300#128, []⟩ : Response)], quiet p.1 p.2 := by
  refine ⟨rfl, by decide, fun p hp => ?_⟩
  simp only [List.zip_cons_cons, List.zip_nil_right, List.mem_singleton] at hp
  subst hp
  exact ⟨by decide, Or.inl rfl⟩

theorem witness_LegalSequencesNeverFault :
    let is : List Instr := [.write [0x61#8], .sum [0xAA#8], .reset, .checksum 1#32 []]
    let s := { State.reset with input := (Instr.new 1#32 :: is).flatMap encode ++ [] }
    s.por = false ∧ (∀ i ∈ is, i.wellFormed = true ∧ (i.mnemonic = .sum → i.payload.length ≤ 2 ^ 64 - 5)) ∧
      (is.flatMap fun i => if i.mnemonic = .write then i.payload else []).length < 2 ^ 64 ∧
      s.input = (Instr.new 1#32 :: is).flatMap encode ++ [] :=
  ⟨rfl, by decide, by decide, rfl⟩

end Sys2Proof.Tests
end

section
/-! `Hash32` (R113) without its block loop, for inputs of no block and of one block, and the source's known answers. -/

namespace Sys2Proof.Machine

/-- R108, R110: fewer than 16 bytes never reach the lanes. -/
theorem hash32_of_lt (seed : Word) (bs : List Byte) (h : bs.length < 16) :
    hash32 seed bs = fmix (tail (seed + Config.P5 + lenWord bs.length) bs) := by
  rw [hash32, blocks_of_lt _ _ h, List.drop_zero, combine, startValue_of_lt _ _ _ h]

/-- R98, R107, R110: from 16 to 31 bytes there is one block step, and what follows the block is the tail. -/
theorem hash32_of_one_block (seed : Word) (bs : List Byte) (h16 : 16 ≤ bs.length) (h32 : bs.length < 32) :
    hash32 seed bs =
      fmix (tail (merge (blockStep (init seed) (bs.take 16)) + lenWord bs.length) (bs.drop 16)) := by
  have hrest : (bs.drop 16).length < 16 := by rw [List.length_drop]; omega
  have hblocks : blocks (init seed) bs = (blockStep (init seed) (bs.take 16), 16) := by
    simp only [blocks_of_ge _ _ h16, blocks_of_lt _ _ hrest, Nat.add_zero]
  rw [hash32, hblocks, combine, startValue_of_ge _ _ _ h16]

/-- Settles O22: the constants by definition; S1 to S4 (0, 1, 3 and 10 bytes) hash the tail only, S5 (27 bytes) is one
block and a tail of 11 bytes, and what is left of each vector is a closed computation of the units. -/
theorem constantsGiveKnownAnswers : Obligations.ConstantsGiveKnownAnswers := by
  refine ⟨rfl, rfl, rfl, rfl, rfl, ?s1, ?s2, ?s3, ?s4, ?s5⟩
  case s1 | s2 | s3 | s4 =>
    rw [hash32_of_lt _ _ (by decide)]
    decide
  case s5 =>
    rw [hash32_of_one_block _ _ (by decide) (by decide)]
    decide

end Sys2Proof.Machine
end

section
/-! The block loop over an input that arrives in pieces (R98, R99): how far it gets, and where it goes on. -/

namespace Sys2Proof.Machine

/-- Induction along the loop of `Blocks`: fewer than 16 bytes, or one group and the bytes after it. -/
theorem blocks_induction {motive : Lanes → List Byte → Prop}
    (short : ∀ v bs, bs.length < 16 → motive v bs)
    (group : ∀ v bs, 16 ≤ bs.length → motive (blockStep v (bs.take 16)) (bs.drop 16) → motive v bs)
    (v : Lanes) (bs : List Byte) : motive v bs := by
  induction hn : bs.length using Nat.strong_induction_on generalizing v bs with
  | _ n ih =>
    by_cases h : bs.length < 16
    · exact short v bs h
    · exact group v bs (by omega) (ih _ (by rw [List.length_drop]; omega) _ _ rfl)

/-- The loop consumes the whole groups (R98). -/
theorem blocks_snd (v : Lanes) (bs : List Byte) : (blocks v bs).2 = 16 * (bs.length / 16) := by
  induction v, bs using blocks_induction with
  | short v bs h => rw [blocks_of_lt v bs h]; omega
  | group v bs h ih => rw [blocks_of_ge v bs h, ih, List.length_drop]; omega

theorem blocks_snd_le (v : Lanes) (bs : List Byte) : (blocks v bs).2 ≤ bs.length := by
  rw [blocks_snd]; omega

/-- The loop over `as ++ bs` is the loop over `as` and then, from its accumulators, the loop over the bytes that it left
and `bs`. -/
theorem blocks_append (v : Lanes) (as bs : List Byte) :
    blocks v (as ++ bs) = ((blocks (blocks v as).1 (as.drop (blocks v as).2 ++ bs)).1,
      (blocks v as).2 + (blocks (blocks v as).1 (as.drop (blocks v as).2 ++ bs)).2) := by
  induction v, as using blocks_induction with
  | short v as h => simp [blocks_of_lt v as h]
  | group v as h ih =>
    rw [blocks_of_ge v (as ++ bs) (by rw [List.length_append]; omega), List.take_append_of_le_length h,
      List.drop_append_of_le_length h, ih, blocks_of_ge v as h, List.drop_drop, Nat.add_assoc]

/-- What the loop left of `as` and `bs` together is what it leaves when it goes on with `bs`. -/
theorem drop_blocks_append (v : Lanes) (as bs : List Byte) :
    (as ++ bs).drop (blocks v (as ++ bs)).2 =
      (as.drop (blocks v as).2 ++ bs).drop (blocks (blocks v as).1 (as.drop (blocks v as).2 ++ bs)).2 := by
  rw [blocks_append, ← List.drop_drop, List.drop_append_of_le_length (blocks_snd_le v as)]

/-- The accumulators depend on the whole groups only. -/
theorem blocks_fst_take (v : Lanes) (bs : List Byte) :
    (blocks v (bs.take (16 * (bs.length / 16)))).1 = (blocks v bs).1 := by
  have hrest : ((bs.take (16 * (bs.length / 16))).drop (blocks v (bs.take (16 * (bs.length / 16)))).2) = [] := by
    rw [List.drop_eq_nil_iff, blocks_snd, List.length_take]; omega
  conv_rhs => rw [← List.take_append_drop (16 * (bs.length / 16)) bs, blocks_append, hrest]
  rw [List.nil_append, blocks_of_lt _ (bs.drop _) (by rw [List.length_drop]; omega)]

end Sys2Proof.Machine
end

section
/-! Every command as a change of the context and one response. `exec_eq` says it of all commands at once, so that the
proofs about states and about responses speak of `contextAfter` and `answer`, and no longer of `exec`. -/

namespace Sys2Proof.Machine

/-- The response of a command that executed (R71, R72). -/
def okAnswer (m : Mnemonic) (val : Word) (cnt : BitVec 64) (rpay : List Byte) : Response :=
  ⟨mkResponseDesc okCode m.code val cnt, rpay⟩

/-- The response of a command that took a fault (R73). -/
def faultAnswer (f : Cause) (op : Byte) : Response := ⟨mkResponseDesc f.code op 0#32 0#64, []⟩

/-- The context after a `WRITE` of a constructed hasher: refused, short path, long path (R122 to R124). -/
def written (data : List Byte) (s : State) : State :=
  if 2 ^ 64 - 1 < s.len.toNat + data.length then s
  else if s.cnt.toNat + data.length < 16 then
    ((s.addLen data.length).setBuf (s.buf.writeBytes s.cnt.toNat data)).setCnt (s.cnt.toNat + data.length)
  else
    (((s.addLen data.length).setBuf ((headBuf data s).writeBytes 0 (longRest data s))).setLanes
      (longResult data s).1).setCnt (longRest data s).length

/-- The state after a command, before its response is there. -/
def contextAfter (i : Instr) (s : State) : State :=
  match i with
  | .new seed => (s.construct seed).restart (init seed)
  | .reset => if s.valid then s.restart (init s.seed) else s
  | .write data => if s.valid then written data s else s
  | .sum32 | .sum _ | .size | .blocksize | .checksum _ _ => s

/-- The response to a command. -/
def answer (i : Instr) (s : State) : Response :=
  match i with
  | .new _ => okAnswer .new 0#32 0#64 []
  | .reset => if s.valid then okAnswer .reset 0#32 0#64 [] else faultAnswer .notConstructed Mnemonic.reset.code
  | .write data =>
    if s.valid then
      if 2 ^ 64 - 1 < s.len.toNat + data.length then faultAnswer .lengthOverflow Mnemonic.write.code
      else okAnswer .write 0#32 (BitVec.ofNat 64 data.length) []
    else faultAnswer .notConstructed Mnemonic.write.code
  | .sum32 => if s.valid then okAnswer .sum32 s.digest 0#64 [] else faultAnswer .notConstructed Mnemonic.sum32.code
  | .sum pre =>
    if s.valid then
      if 2 ^ 64 - 5 < pre.length then faultAnswer .lengthOverflow Mnemonic.sum.code
      else okAnswer .sum 0#32 (BitVec.ofNat 64 (pre.length + 4)) (pre ++ digestBytes s.digest)
    else faultAnswer .notConstructed Mnemonic.sum.code
  | .size => okAnswer .size Config.digestBytes 0#64 []
  | .blocksize => okAnswer .blocksize Config.blockSizeInfo 0#64 []
  | .checksum seed data => okAnswer .checksum (hash32 seed data) 0#64 []

section Written
variable (data : List Byte) (s : State)

theorem written_of_overflow (h : 2 ^ 64 - 1 < s.len.toNat + data.length) : written data s = s := if_pos h

theorem written_of_short (h : s.len.toNat + data.length ≤ 2 ^ 64 - 1) (hc : s.cnt.toNat + data.length < 16) :
    written data s =
      ((s.addLen data.length).setBuf (s.buf.writeBytes s.cnt.toNat data)).setCnt (s.cnt.toNat + data.length) := by
  rw [written, if_neg (Nat.not_lt.2 h), if_pos hc]

theorem written_of_long (h : s.len.toNat + data.length ≤ 2 ^ 64 - 1) (hc : 16 ≤ s.cnt.toNat + data.length) :
    written data s = (((s.addLen data.length).setBuf ((headBuf data s).writeBytes 0 (longRest data s))).setLanes
      (longResult data s).1).setCnt (longRest data s).length := by
  rw [written, if_neg (Nat.not_lt.2 h), if_neg (Nat.not_lt.2 hc)]

@[simp] theorem written_valid : (written data s).valid = s.valid := by unfold written; split_ifs <;> rfl

@[simp] theorem written_seed : (written data s).seed = s.seed := by unfold written; split_ifs <;> rfl

end Written

/-- A command behind the `VALID` check, from what it does in a constructed hasher and that it faults in another. -/
theorem eq_next_of_valid_cases {o : Host.Outcome State Fault Refusal} {s c : State} {r : Response} {m : Mnemonic}
    (hvalid : s.valid = true → o = .next (c.emit r))
    (hinvalid : s.valid = false → o = raise .notConstructed m.code s) :
    o = .next ((if s.valid then c else s).emit (if s.valid then r else faultAnswer .notConstructed m.code)) := by
  cases hv : s.valid with
  | true => exact hvalid hv
  | false => exact hinvalid hv

theorem execReset_eq (s : State) :
    execReset s = .next ((contextAfter .reset s).emit (answer .reset s)) :=
  eq_next_of_valid_cases (c := s.restart (init s.seed)) (r := okAnswer .reset 0#32 0#64 []) (m := .reset)
    (execReset_of_valid s) (whenConstructed_of_invalid .reset _ s)

theorem execWrite_eq (data : List Byte) (s : State) :
    execWrite data s = .next ((contextAfter (.write data) s).emit (answer (.write data) s)) := by
  refine eq_next_of_valid_cases (fun hv => ?_) (whenConstructed_of_invalid .write _ s)
  rcases execWrite_cases data s hv with ⟨h, he⟩ | ⟨h, hc, he⟩ | ⟨h, hc, he⟩ <;> rw [he]
  · rw [if_pos h, written_of_overflow _ _ h]; rfl
  · rw [if_neg (Nat.not_lt.2 h), written_of_short _ _ h hc, writeShort_eq data (s.addLen data.length) hc]; rfl
  · rw [if_neg (Nat.not_lt.2 h), written_of_long _ _ h hc, writeLong_eq]; rfl

theorem execSum_eq (pre : List Byte) (s : State) : execSum pre s = .next (s.emit (answer (.sum pre) s)) := by
  refine (eq_next_of_valid_cases (o := execSum pre s) (c := s) (fun hv => ?_)
    (whenConstructed_of_invalid .sum _ s)).trans (by rw [ite_self]; rfl)
  rcases execSum_cases pre s hv with ⟨h, he⟩ | ⟨h, he⟩ <;> rw [he]
  · rw [if_pos h]; rfl
  · rw [if_neg (Nat.not_lt.2 h)]; rfl

theorem execSum32_eq (s : State) : execSum32 s = .next (s.emit (answer .sum32 s)) :=
  (eq_next_of_valid_cases (execSum32_of_valid s) (whenConstructed_of_invalid .sum32 _ s)).trans (by rw [ite_self]; rfl)

/-- Every command goes on, in the state `contextAfter` with the response `answer`. -/
theorem exec_eq (i : Instr) (s : State) : exec i s = .next ((contextAfter i s).emit (answer i s)) := by
  cases i with
  | new seed => exact execNew_eq seed s
  | reset => exact execReset_eq s
  | write data => exact execWrite_eq data s
  | sum32 => exact execSum32_eq s
  | sum pre => exact execSum_eq pre s
  | size | blocksize | checksum => rfl

end Sys2Proof.Machine
end

section
/-! What an accepted `WRITE` does to the context, the same for both paths (R123, R124): the block loop runs over the
pending bytes and the payload, and what it leaves is pending. -/

namespace Sys2Proof.Machine

section HeadAndRest
variable (data : List Byte) (s : State)

theorem headBuf_wf (hwf : s.buf.wf) : (headBuf data s).wf :=
  Memory.writeBytes_wf _ _ _ hwf (by have := s.cnt.isLt; simp [Config.bufCap]; omega)

/-- The head completes the pending bytes to one block. -/
theorem headBuf_range (hwf : s.buf.wf) (hc : 16 ≤ s.cnt.toNat + data.length) :
    (headBuf data s).range 0 16 = s.pend ++ data.take (16 - s.cnt.toNat) := by
  have hl : s.cnt.toNat + (data.take (16 - s.cnt.toNat)).length = 16 := by
    have := s.cnt.isLt; rw [List.length_take]; omega
  have := Memory.range_writeBytes_append s.buf s.cnt.toNat (data.take (16 - s.cnt.toNat)) hwf (by rw [hl]; rfl)
  rwa [hl] at this

/-- The block from the buffer and the direct blocks are one run of the block loop. -/
theorem blocks_pend_append (hwf : s.buf.wf) (hc : 16 ≤ s.cnt.toNat + data.length) :
    blocks s.v (s.pend ++ data) = ((longResult data s).1, 16 + (longResult data s).2) := by
  have hp : s.pend.length ≤ 16 := by rw [pend_length]; exact s.cnt.isLt.le
  rw [blocks_of_ge _ _ (by rwa [List.length_append, pend_length]), List.take_append, List.drop_append,
    List.take_of_length_le hp, List.drop_of_length_le hp, List.nil_append, pend_length, longResult,
    headBuf_range data s hwf hc]

theorem longRest_eq (hwf : s.buf.wf) (hc : 16 ≤ s.cnt.toNat + data.length) :
    longRest data s = (s.pend ++ data).drop (blocks s.v (s.pend ++ data)).2 := by
  have hp : s.pend.length ≤ 16 := by rw [pend_length]; exact s.cnt.isLt.le
  rw [blocks_pend_append data s hwf hc, ← List.drop_drop, List.drop_append, List.drop_of_length_le hp,
    List.nil_append, pend_length, longRest]

end HeadAndRest

/-- `t` is what the context of `s` becomes when `data` is absorbed. -/
structure Absorbs (data : List Byte) (s t : State) : Prop where
  len : t.len = s.len + BitVec.ofNat 64 data.length
  lanes : t.v = (blocks s.v (s.pend ++ data)).1
  pend : t.pend = (s.pend ++ data).drop (blocks s.v (s.pend ++ data)).2

theorem written_buf_wf (data : List Byte) (s : State) (hwf : s.buf.wf) : (written data s).buf.wf := by
  unfold written
  split_ifs with _ hc
  · exact hwf
  · exact Memory.writeBytes_wf _ _ _ hwf (by simp only [Config.bufCap]; omega)
  · exact Memory.writeBytes_wf _ _ _ (headBuf_wf data s hwf)
      (by have := longRest_lt data s; simp only [Config.bufCap]; omega)

/-- The pending bytes of a context whose count fits. -/
theorem pend_setCnt (s : State) (n : Nat) (h : n < 16) : (s.setCnt n).pend = s.buf.range 0 n := by
  rw [State.pend, setCnt_toNat s n h, State.setCnt_buf]

theorem written_absorbs (data : List Byte) (s : State) (hwf : s.buf.wf) (h : s.len.toNat + data.length ≤ 2 ^ 64 - 1) :
    Absorbs data s (written data s) := by
  by_cases hc : s.cnt.toNat + data.length < 16
  · have hb : blocks s.v (s.pend ++ data) = (s.v, 0) :=
      blocks_of_lt _ _ (by rwa [List.length_append, pend_length])
    rw [written_of_short data s h hc]
    refine ⟨rfl, by rw [hb]; rfl, ?_⟩
    rw [hb, List.drop_zero, pend_setCnt _ _ hc, State.setBuf_buf,
      Memory.range_writeBytes_append _ _ _ hwf (by simp only [Config.bufCap]; omega)]
    rfl
  · have hc : 16 ≤ s.cnt.toNat + data.length := by omega
    have hr := longRest_lt data s
    rw [written_of_long data s h hc]
    refine ⟨rfl, by rw [blocks_pend_append data s hwf hc]; rfl, ?_⟩
    rw [← longRest_eq data s hwf hc, pend_setCnt _ _ hr, State.setLanes_buf, State.setBuf_buf]
    simpa [Memory.range] using Memory.range_writeBytes_append (headBuf data s) 0 (longRest data s)
      (headBuf_wf data s hwf) (by simp only [Config.bufCap]; omega)

end Sys2Proof.Machine
end

section
/-! What the context stands for (R32), by the block loop over the whole input, and how a command changes it. -/

namespace Sys2Proof.Machine

/-- Items (i) to (v) of R32 as one run of the block loop over the input: its accumulators, and what
it leaves pending. -/
theorem represents_iff (s : State) (B : List Byte) :
    s.Represents B ↔ s.len.toNat = B.length ∧ s.v = (blocks (init s.seed) B).1 ∧
      s.pend = B.drop (blocks (init s.seed) B).2 := by
  constructor
  · rintro ⟨hlen, hcnt, hpend, hlanes, -⟩
    have hgroups : B.length - s.cnt.toNat = 16 * (B.length / 16) := by omega
    rw [hlen, hgroups, blocks_fst_take] at hlanes
    rw [hgroups, ← blocks_snd (init s.seed)] at hpend
    exact ⟨hlen, hlanes, hpend⟩
  · rintro ⟨hlen, hlanes, hpend⟩
    have hcnt : s.cnt.toNat = B.length % 16 := by
      rw [← pend_length, hpend, List.length_drop, blocks_snd]; omega
    have hgroups : B.length - s.cnt.toNat = 16 * (B.length / 16) := by omega
    refine ⟨hlen, by rw [hlen, hcnt], ?_, ?_, fun hshort => ?_⟩
    · rw [hpend, blocks_snd, hgroups]
    · rw [hlanes, hlen, hgroups, blocks_fst_take]
    · rw [hlanes, blocks_of_lt _ _ (hlen ▸ hshort)]

@[simp] theorem restart_pend (s : State) (v : Lanes) : (s.restart v).pend = [] := by
  rw [← List.length_eq_zero_iff, pend_length, State.restart_cnt]; rfl

/-- The accumulators of a fresh hasher, no length and no pending bytes: no input yet (R37). -/
theorem restart_represents_nil (s : State) : (s.restart (init s.seed)).Represents [] :=
  (represents_iff _ _).2 ⟨rfl, by rw [blocks_of_lt _ _ (by decide), State.restart_v, State.restart_seed],
    by rw [restart_pend, List.drop_nil]⟩

/-- Absorbing goes on from the input absorbed before: the block loop resumes on what it left. -/
theorem Absorbs.represents {data B : List Byte} {s t : State} (ha : Absorbs data s t) (hseed : t.seed = s.seed)
    (hlen : s.len.toNat + data.length ≤ 2 ^ 64 - 1) (h : s.Represents B) : t.Represents (B ++ data) := by
  obtain ⟨hl, hv, hp⟩ := (represents_iff s B).1 h
  refine (represents_iff t _).2 ⟨?_, ?_, ?_⟩
  · rw [ha.len, ← State.addLen_len, addLen_toNat s _ hlen, hl, List.length_append]
  · rw [ha.lanes, hseed, hv, hp, blocks_append _ B]
  · rw [ha.pend, hseed, hv, hp, drop_blocks_append _ B]

section Frame
variable (s : State) (B : List Byte)

@[simp] theorem pend_emit (r : Response) : (s.emit r).pend = s.pend := rfl

@[simp] theorem pend_setInput (bs : List Byte) : (s.setInput bs).pend = s.pend := rfl

@[simp] theorem represents_emit (r : Response) : (s.emit r).Represents B ↔ s.Represents B := by
  simp [represents_iff]

@[simp] theorem represents_setInput (bs : List Byte) : (s.setInput bs).Represents B ↔ s.Represents B := by
  simp [represents_iff]

end Frame

theorem contextAfter_new_represents (seed : Word) (s : State) : (contextAfter (.new seed) s).Represents [] :=
  restart_represents_nil (s.construct seed)

/-- R32 for every command: the context stands for what `absorbed` says. -/
theorem contextAfter_represents (i : Instr) (s : State) (B : List Byte) (hv : s.valid = true) (hwf : s.buf.wf)
    (h : s.Represents B) : (contextAfter i s).Represents (absorbed s B i) := by
  cases i with
  | new seed => exact contextAfter_new_represents seed s
  | reset =>
    rw [contextAfter, if_pos hv]
    exact restart_represents_nil s
  | write data =>
    rw [contextAfter, if_pos hv, absorbed]
    split_ifs with hlen
    · exact (written_absorbs data s hwf hlen).represents (written_seed data s) hlen h
    · rwa [written_of_overflow data s (by omega)]
  | sum32 | sum pre | size | blocksize | checksum seed data => exact h

/-- Settles O33: a command's next state is `contextAfter` with a response more, which stands for what `contextAfter`
stands for. -/
theorem contextStandsForInput : Obligations.ContextStandsForInput := by
  refine ⟨fun seed s t h => ?_, fun i s t B hv hwf hB h => ?_⟩
  all_goals
    rw [exec_eq, Host.Outcome.next.injEq] at h
    subst h
    rw [represents_emit]
  · exact ⟨rfl, contextAfter_new_represents seed s⟩
  · exact contextAfter_represents i s B hv hwf hB

end Sys2Proof.Machine
end

section
/-! The invariant of the hasher context and the registers that a command may write (R20 to R26, R32, R36). -/

namespace Sys2Proof.Machine

theorem contextAfter_buf (i : Instr) (s : State) (h : i.mnemonic ≠ .write) : (contextAfter i s).buf = s.buf := by
  cases i with
  | new seed => rfl
  | reset => rw [contextAfter]; split_ifs <;> simp
  | write data => exact absurd rfl h
  | sum32 | sum pre | size | blocksize | checksum seed data => rfl

theorem contextAfter_buf_wf (i : Instr) (s : State) (hwf : s.buf.wf) : (contextAfter i s).buf.wf := by
  cases i with
  | write data =>
    rw [contextAfter]
    split_ifs
    · exact written_buf_wf data s hwf
    · exact hwf
  | new | reset | sum32 | sum | size | blocksize | checksum =>
    rwa [contextAfter_buf _ s (by simp [Instr.mnemonic])]

theorem contextAfter_valid (i : Instr) (s : State) :
    (contextAfter i s).valid = true ↔ s.valid = true ∨ i.mnemonic = .new := by
  cases i with
  | new seed => simp [contextAfter, Instr.mnemonic]
  | reset | write data => rw [contextAfter]; split_ifs <;> simp [Instr.mnemonic]
  | sum32 | sum pre | size | blocksize | checksum seed data => simp [contextAfter, Instr.mnemonic]

theorem contextAfter_seed (i : Instr) (s : State) (h : i.mnemonic ≠ .new) : (contextAfter i s).seed = s.seed := by
  cases i with
  | new seed => exact absurd rfl h
  | reset | write data => rw [contextAfter]; split_ifs <;> simp
  | sum32 | sum pre | size | blocksize | checksum seed data => rfl

/-- The commands that only read the context (R20). -/
theorem contextAfter_of_readOnly (i : Instr) (s : State) (hn : i.mnemonic ≠ .new) (hr : i.mnemonic ≠ .reset)
    (hw : i.mnemonic ≠ .write) : contextAfter i s = s := by
  cases i with
  | new seed => exact absurd rfl hn
  | reset => exact absurd rfl hr
  | write data => exact absurd rfl hw
  | sum32 | sum pre | size | blocksize | checksum seed data => rfl

/-- Settles O21: the next state is `contextAfter` with a response more, and each clause is a fact
about `contextAfter`. -/
theorem registersWrittenOnlyByTheirCommands : Obligations.RegistersWrittenOnlyByTheirCommands := by
  intro i s t h
  rw [exec_eq, Host.Outcome.next.injEq] at h
  subst h
  refine ⟨contextAfter_valid i s, contextAfter_seed i s, fun hn hr hw => ?_, contextAfter_buf i s⟩
  rw [contextAfter_of_readOnly i s hn hr hw]
  exact ⟨rfl, rfl, rfl⟩

@[simp] theorem inv_emit (s : State) (r : Response) : (s.emit r).Inv ↔ s.Inv := by simp [State.Inv]

@[simp] theorem inv_setInput (s : State) (bs : List Byte) : (s.setInput bs).Inv ↔ s.Inv := by simp [State.Inv]

/-- An empty buffer is canonical, and an unconstructed context need not stand for anything. -/
theorem inv_of_unconstructed (s : State) (hb : s.buf = []) (hv : s.valid = false) : s.Inv :=
  ⟨by simp [hb, Memory.wf], by simp [hv]⟩

theorem contextAfter_inv (i : Instr) (s : State) (h : s.Inv) : (contextAfter i s).Inv := by
  obtain ⟨hwf, hrep⟩ := h
  refine ⟨contextAfter_buf_wf i s hwf, fun hv => ?_⟩
  by_cases hs : s.valid = true
  · obtain ⟨B, hB⟩ := hrep hs
    exact ⟨_, contextAfter_represents i s B hs hwf hB⟩
  · cases i with
    | new seed => exact ⟨[], contextAfter_new_represents seed s⟩
    | reset | write | sum32 | sum | size | blocksize | checksum =>
      exact absurd hv (by simp [contextAfter_valid, hs, Instr.mnemonic])

/-- Settles O31: a step is a power-on reset, waiting, or one command (`step_cases`); a command keeps the invariant by
`contextAfter_inv`, and neither the channel nor the responses enter it. -/
theorem stepKeepsInvariant : Obligations.StepKeepsInvariant := by
  intro s t hs h
  rcases step_cases s with ⟨-, he⟩ | ⟨-, -, he⟩ | ⟨-, -, he⟩ | ⟨c, rest, i, -, -, -, -, he⟩ |
    ⟨c, rest, e, -, -, -, -, he⟩
  all_goals rw [he] at h
  · cases h
    exact inv_of_unconstructed _ rfl rfl
  · cases h
    exact hs
  · cases h
  · rw [exec_eq] at h
    cases h
    exact (inv_emit _ _).2 (contextAfter_inv i _ ((inv_setInput s rest).2 hs))
  · cases h
    exact (inv_emit _ _).2 ((inv_setInput s rest).2 hs)

/-- Settles O32: no cell is listed and `VALID` is 0. -/
theorem resetMeetsInvariant : Obligations.ResetMeetsInvariant :=
  ⟨inv_of_unconstructed _ rfl rfl, rfl⟩

end Sys2Proof.Machine
end

section
/-! States that no response tells apart (R25, R31, R36): a command gives them the same answer and leaves them so, and
with them every step and every run. -/

namespace Sys2Proof.Machine

/-- The digest reads nothing outside the view. -/
theorem digest_congr {s t : State} (h : s.SameView t) (hv : s.valid = true) : s.digest = t.digest := by
  obtain ⟨hseed, hlanes, hlen, -, hpend⟩ := h.2 hv
  rw [State.digest, State.digest, hseed, hlanes, hlen, hpend]

/-- A command answers states of the same view alike: what reads a register reads it behind the `VALID` check. -/
theorem answer_congr (i : Instr) {s t : State} (h : s.SameView t) : answer i s = answer i t := by
  have hvalid : (s.valid = true) = (t.valid = true) := by rw [h.1]
  cases i with
  | new | size | blocksize | checksum => simp only [answer]
  | reset => simp only [answer, h.1]
  | write data =>
    refine ite_congr hvalid (fun ht => ?_) fun _ => rfl
    obtain ⟨-, -, hlen, -, -⟩ := h.2 (h.1.trans ht)
    rw [hlen]
  | sum32 | sum pre => exact ite_congr hvalid (fun ht => by rw [digest_congr h (h.1.trans ht)]) fun _ => rfl

/-- Fresh contexts of one seed look the same. -/
theorem restart_sameView {s t : State} (v : Lanes) (hvalid : s.valid = t.valid) (hseed : s.seed = t.seed) :
    (s.restart v).SameView (t.restart v) :=
  ⟨hvalid, fun _ => ⟨hseed, rfl, rfl, rfl, by simp⟩⟩

/-- Absorbing reads the view only, and `CNT` is the number of pending bytes. -/
theorem Absorbs.sameView {data : List Byte} {s t s' t' : State} (hs : Absorbs data s s') (ht : Absorbs data t t')
    (hvalid : s'.valid = t'.valid) (hseed : s'.seed = t'.seed) (hv : s.valid = true) (h : s.SameView t) :
    s'.SameView t' := by
  obtain ⟨-, hlanes, hlen, -, hpend⟩ := h.2 hv
  have hpend' : s'.pend = t'.pend := by rw [hs.pend, ht.pend, hlanes, hpend]
  refine ⟨hvalid, fun _ => ⟨hseed, ?_, ?_, ?_, hpend'⟩⟩
  · rw [hs.lanes, ht.lanes, hlanes, hpend]
  · rw [hs.len, ht.len, hlen]
  · exact BitVec.eq_of_toNat_eq (by rw [← pend_length, ← pend_length, hpend'])

theorem written_sameView (data : List Byte) {s t : State} (hs : s.buf.wf) (ht : t.buf.wf) (hv : s.valid = true)
    (h : s.SameView t) : (written data s).SameView (written data t) := by
  obtain ⟨hseed, -, hlen, -, -⟩ := h.2 hv
  by_cases hl : s.len.toNat + data.length ≤ 2 ^ 64 - 1
  · exact (written_absorbs data s hs hl).sameView (written_absorbs data t ht (hlen ▸ hl)) (by simpa using h.1)
      (by simpa using hseed) hv h
  · rwa [written_of_overflow data s (by omega), written_of_overflow data t (by rw [← hlen]; omega)]

theorem contextAfter_sameView (i : Instr) {s t : State} (hs : s.buf.wf) (ht : t.buf.wf) (h : s.SameView t) :
    (contextAfter i s).SameView (contextAfter i t) := by
  cases i with
  | new seed => exact restart_sameView _ rfl rfl
  | reset =>
    by_cases hv : s.valid = true
    · obtain ⟨hseed, -⟩ := h.2 hv
      rw [contextAfter, contextAfter, if_pos hv, if_pos (h.1 ▸ hv), hseed]
      exact restart_sameView _ h.1 hseed
    · rwa [contextAfter, contextAfter, if_neg hv, if_neg (h.1 ▸ hv)]
  | write data =>
    by_cases hv : s.valid = true
    · rw [contextAfter, contextAfter, if_pos hv, if_pos (h.1 ▸ hv)]
      exact written_sameView data hs ht hv h
    · rwa [contextAfter, contextAfter, if_neg hv, if_neg (h.1 ▸ hv)]
  | sum32 | sum pre | size | blocksize | checksum seed data => exact h

/-- A command leaves the host's side as it is, but for its response. -/
theorem contextAfter_host (i : Instr) (s : State) : (contextAfter i s).responses = s.responses ∧
    (contextAfter i s).input = s.input ∧ (contextAfter i s).por = s.por := by
  obtain ⟨t, r, he, hr, hi, hp⟩ := exec_answers i s
  rw [exec_eq, Host.Outcome.next.injEq] at he
  subst he
  exact ⟨(List.append_inj' hr rfl).1, hi, hp⟩

/-- Canonical buffers, the same view and the same host's side. -/
structure Twins (s t : State) : Prop where
  left_wf : s.buf.wf
  right_wf : t.buf.wf
  view : s.SameView t
  responses : s.responses = t.responses
  input : s.input = t.input
  por : s.por = t.por

section Twins
variable {s t : State} (h : Twins s t)
include h

theorem Twins.emit (r : Response) : Twins (s.emit r) (t.emit r) :=
  ⟨h.left_wf, h.right_wf, h.view, congrArg (· ++ [r]) h.responses, h.input, h.por⟩

theorem Twins.setInput (bs : List Byte) : Twins (s.setInput bs) (t.setInput bs) :=
  ⟨h.left_wf, h.right_wf, h.view, h.responses, rfl, h.por⟩

theorem Twins.powerOnReset : Twins (powerOnReset s) (powerOnReset t) :=
  ⟨by simp [State.reset, Memory.wf], by simp [State.reset, Memory.wf], ⟨rfl, fun hv => nomatch hv⟩,
    h.responses, rfl, rfl⟩

theorem Twins.contextAfter (i : Instr) : Twins (contextAfter i s) (contextAfter i t) := by
  obtain ⟨hrs, his, hps⟩ := contextAfter_host i s
  obtain ⟨hrt, hit, hpt⟩ := contextAfter_host i t
  exact ⟨contextAfter_buf_wf i s h.left_wf, contextAfter_buf_wf i t h.right_wf,
    contextAfter_sameView i h.left_wf h.right_wf h.view, by rw [hrs, hrt, h.responses], by rw [his, hit, h.input],
    by rw [hps, hpt, h.por]⟩

/-- Twins run a whole command, legal or not, into twins. -/
theorem Twins.runCommand (c : Command) (hw : c.wellFormed = true) :
    ∃ s' t', runCommand c s = .next s' ∧ runCommand c t = .next t' ∧ Twins s' t' := by
  cases hd : decodeCommand c with
  | ok i =>
    refine ⟨_, _, (runCommand_of_ok c i s hd).trans (exec_eq i s),
      (runCommand_of_ok c i t hd).trans (exec_eq i t), ?_⟩
    rw [answer_congr i h.view]
    exact (h.contextAfter i).emit _
  | error e =>
    exact ⟨_, _, (runCommand_of_error c e s hw hd).trans (raise_eq _ _ s),
      (runCommand_of_error c e t hw hd).trans (raise_eq _ _ t), h.emit _⟩

end Twins

section Step
variable (s : State)

theorem step_of_por (hp : s.por = true) : step s = .next (powerOnReset s) := by simp [step, sequencer, hp]

/-- With nothing presented the processor waits. -/
theorem step_of_input_nil (hp : s.por = false) (hi : s.input = []) : step s = .next s := by
  simp [step, sequencer, hp, hi]

/-- Part of a command is refused. -/
theorem step_of_takeCommand_none (hp : s.por = false) (hi : s.input ≠ []) (ht : takeCommand s.input = none) :
    step s = .refused .notACommand := by
  simp [step, sequencer, hp, hi, ht]

end Step

/-- Twins step alike: what a step does is told by the reset input and the channel, which they share. -/
theorem Twins.step {s t : State} (h : Twins s t) :
    (∃ r, step s = .refused r ∧ step t = .refused r) ∨
      ∃ s' t', step s = .next s' ∧ step t = .next t' ∧ Twins s' t' := by
  by_cases hp : s.por = true
  · exact .inr ⟨_, _, step_of_por s hp, step_of_por t (h.por ▸ hp), h.powerOnReset⟩
  have hp : s.por = false := by simpa using hp
  have hp' : t.por = false := h.por ▸ hp
  by_cases hi : s.input = []
  · exact .inr ⟨_, _, step_of_input_nil s hp hi, step_of_input_nil t hp' (h.input ▸ hi), h⟩
  cases hc : takeCommand s.input with
  | none =>
    exact .inl ⟨_, step_of_takeCommand_none s hp hi hc,
      step_of_takeCommand_none t hp' (h.input ▸ hi) (h.input ▸ hc)⟩
  | some p =>
    obtain ⟨c, rest⟩ := p
    rw [step_of_takeCommand s c rest hp hc, step_of_takeCommand t c rest hp' (h.input ▸ hc)]
    exact .inr ((h.setInput rest).runCommand c (takeCommand_wellFormed _ _ _ hc))

/-- A run ends where a step is refused. -/
theorem runSteps_of_refused (k : Nat) (s : State) (r : Refusal) (h : step s = .refused r) :
    runSteps (k + 1) s = .refused r := by
  rw [runSteps, h]

theorem Twins.runSteps (k : Nat) {s t : State} (h : Twins s t) : sameOutcome (runSteps k s) (runSteps k t) := by
  induction k generalizing s t with
  | zero => exact ⟨h.view, h.responses, h.input, h.por⟩
  | succ k ih =>
    rcases h.step with ⟨r, hs, ht⟩ | ⟨s', t', hs, ht, h'⟩
    · rw [runSteps_of_refused k s r hs, runSteps_of_refused k t r ht]
      exact rfl
    · rw [runSteps_of_step k s s' hs, runSteps_of_step k t t' ht]
      exact ih h'

/-- Settles O36: the premises make the two states twins, and twins run alike. -/
theorem hiddenStateIsUnobservable : Obligations.HiddenStateIsUnobservable :=
  fun k _ _ hs ht hview hresp hinput hpor => Twins.runSteps k ⟨hs, ht, hview, hresp, hinput, hpor⟩

end Sys2Proof.Machine
end

section
/-! Decoding a channel is framing its first command and decoding that; a decoded command is well formed, and it is the
one that the step runs (R55, R62, R65). No step ends in a fault of the model (R53). -/

namespace Sys2Proof

/-- Decoding succeeds on exactly the well-formed pairs whose descriptor a row covers, with that row's operands (R65). -/
theorem decodeCommand_eq_ok_iff (c : Command) (i : Instr) :
    decodeCommand c = .ok i ↔
      c.wellFormed = true ∧ ∃ m, lookup c.desc = some m ∧ operands m c.desc c.pay = i := by
  cases hw : c.wellFormed with
  | false => simp [decodeCommand, hw]
  | true =>
    cases hl : lookup c.desc with
    | none => simp [decodeCommand_of_lookup_none c hw hl]
    | some m => simp [decodeCommand_of_lookup c m hw hl]

theorem decode_eq_ok_iff (bs : List Byte) (i : Instr) (rest : List Byte) :
    decode bs = .ok (i, rest) ↔ ∃ c, takeCommand bs = some (c, rest) ∧ decodeCommand c = .ok i := by
  rw [decode]
  cases ht : takeCommand bs with
  | none => simp
  | some p =>
    obtain ⟨c, rest'⟩ := p
    cases hd : decodeCommand c with
    | error e => simp [hd]
    | ok j => simp [hd, and_comm]

/-- A row takes the payload as it stands, or takes none (R64). -/
theorem operands_payload_length_le (m : Mnemonic) (d : Desc) (pay : List Byte) :
    (operands m d pay).payload.length ≤ pay.length := by
  cases m with
  | write | sum | checksum => exact le_rfl
  | new | reset | sum32 | size | blocksize => exact Nat.zero_le _

/-- The payload of a well-formed pair has as many bytes as the 64-bit field `D.LEN` says (R61, R78). -/
theorem pay_length_lt (c : Command) (hw : c.wellFormed = true) : c.pay.length < 2 ^ 64 := by
  have hl : c.pay.length = (Desc.len c.desc).toNat := by simpa [Command.wellFormed] using hw
  exact hl ▸ (Desc.len c.desc).isLt

theorem instr_wellFormed_of_decodeCommand (c : Command) (i : Instr) (h : decodeCommand c = .ok i) :
    i.wellFormed = true := by
  obtain ⟨hw, m, -, rfl⟩ := (decodeCommand_eq_ok_iff c i).1 h
  exact decide_eq_true ((operands_payload_length_le m c.desc c.pay).trans_lt (pay_length_lt c hw))

namespace Machine

/-- Settles O5: the command that `decode` reads is the one that `takeCommand` frames, which `step_of_takeCommand` runs. -/
theorem stepRunsDecodedCommand : Obligations.StepRunsDecodedCommand := by
  intro s i rest hp h
  obtain ⟨c, ht, hd⟩ := (decode_eq_ok_iff s.input i rest).1 h
  exact ⟨instr_wellFormed_of_decodeCommand c i hd,
    (step_of_takeCommand s c rest hp ht).trans (runCommand_of_ok c i (s.setInput rest) hd)⟩

/-- Settles O10: a command always goes on (`exec_eq`: both runs of stores of a `WRITE` stay inside the sixteen cells), and
so do power-on reset, waiting and an illegal command; part of a command is refused, which is no fault. -/
theorem noStepFaults : Obligations.NoStepFaults := by
  intro s f h
  rcases step_cases s with ⟨-, he⟩ | ⟨-, -, he⟩ | ⟨-, -, he⟩ | ⟨c, rest, i, -, -, -, -, he⟩ |
    ⟨c, rest, e, -, -, -, -, he⟩
  all_goals rw [he] at h
  case inr.inr.inr.inl => rw [exec_eq] at h; cases h
  all_goals cases h

end Machine

end Sys2Proof
end

section
/-! The byte orders as numbers (R44 to R46): words are read little-endian, a digest is emitted big-endian. -/

namespace Sys2Proof.Machine

/-- A concatenation as a number: its high part counts in units of the low part's size. -/
theorem toNat_append_eq_add {n m : Nat} (x : BitVec n) (y : BitVec m) :
    (x ++ y).toNat = y.toNat + 2 ^ m * x.toNat := by
  rw [BitVec.toNat_append, ← Nat.shiftLeft_add_eq_or_of_lt y.isLt, Nat.shiftLeft_eq, Nat.add_comm, Nat.mul_comm]

/-- R44: the first byte is least significant. -/
theorem le32_toNat (b0 b1 b2 b3 : Byte) :
    (le32 b0 b1 b2 b3).toNat = b0.toNat + 2 ^ 8 * b1.toNat + 2 ^ 16 * b2.toNat + 2 ^ 24 * b3.toNat := by
  rw [le32, toNat_append_eq_add, toNat_append_eq_add, toNat_append_eq_add]

/-- R46: a byte is zero-extended. -/
theorem byteWord_toNat (b : Byte) : (byteWord b).toNat = b.toNat :=
  BitVec.toNat_setWidth_of_le (by decide)

/-- R45: the first byte emitted is most significant, so the bytes are the digits of the digest in base 256. -/
theorem digestBytes_foldl (d : Word) : (digestBytes d).foldl (fun n b => 256 * n + b.toNat) 0 = d.toNat := by
  have := d.isLt
  simp only [digestBytes, List.foldl_cons, List.foldl_nil, BitVec.extractLsb'_toNat, Nat.shiftRight_eq_div_pow]
  omega

/-- Settles O25: `le32At` is `le32` of the four bytes that stand at the offset, whatever the offset is (R48). -/
theorem byteOrders : Obligations.ByteOrders :=
  ⟨fun _ _ _ => le32_toNat _ _ _ _, byteWord_toNat, fun d => ⟨digestBytes_foldl d, rfl⟩⟩

end Sys2Proof.Machine
end

section
/-! The opcode table as the rows of the eight mnemonics, so that a descriptor's row is told by its fields, and each
command by its opcode (R61, R66, R68). -/

namespace Sys2Proof

/-- The commands with a seed operand (R66, "uses `SEED`"). -/
def Mnemonic.takesSeed : Mnemonic → Bool
  | .new | .checksum => true
  | .reset | .write | .sum32 | .sum | .size | .blocksize => false

/-- The commands with a payload (R66, "uses `LEN`/payload"). -/
def Mnemonic.takesPayload : Mnemonic → Bool
  | .write | .sum | .checksum => true
  | .new | .reset | .sum32 | .size | .blocksize => false

/-- The row of a mnemonic: opcode and `RSV` fixed, and zero in the fields that the command does not take. -/
def Mnemonic.row (m : Mnemonic) : Row :=
  ⟨m, mkDesc 0xFF#8 0xFFFFFF#24 (if m.takesSeed then 0#32 else 0xFFFFFFFF#32)
    (if m.takesPayload then 0#64 else 0xFFFFFFFFFFFFFFFF#64), mkDesc m.code 0#24 0#32 0#64⟩

theorem row_mem_opcodeTable (m : Mnemonic) : m.row ∈ opcodeTable := by
  cases m <;> decide

theorem eq_row_of_mem_opcodeTable : ∀ r ∈ opcodeTable, r = r.op.row := by decide

/-- R65: a row of the table whose `match` equals `D and mask`. -/
theorem row_covers_of_match {r : Row} {d : Desc} (hr : r ∈ opcodeTable) (h : d &&& r.mask = r.pat) :
    r.op.row.covers d = true := by
  rw [← eq_row_of_mem_opcodeTable r hr]
  exact beq_iff_eq.2 h

theorem mnemonic_code_injective : Function.Injective Mnemonic.code := by
  have hrows : ∀ r ∈ opcodeTable, ∀ q ∈ opcodeTable, r.op.code = q.op.code → r.op = q.op := by decide
  exact fun m n => hrows m.row (row_mem_opcodeTable m) n.row (row_mem_opcodeTable n)

/-- The fields that a row asks for (R66 to R68). -/
theorem row_covers_iff (m : Mnemonic) (d : Desc) : m.row.covers d = true ↔
    Desc.op d = m.code ∧ Desc.rsv d = 0#24 ∧ (m.takesSeed = false → Desc.seed d = 0#32) ∧
      (m.takesPayload = false → Desc.len d = 0#64) := by
  have hs : Desc.seed d &&& 0xFFFFFFFF#32 = Desc.seed d := BitVec.and_allOnes
  have hl : Desc.len d &&& 0xFFFFFFFFFFFFFFFF#64 = Desc.len d := BitVec.and_allOnes
  rw [Mnemonic.row, row_covers]
  cases m.takesSeed <;> cases m.takesPayload <;> simp [hs, hl]

theorem eq_of_row_covers {m n : Mnemonic} {d : Desc} (hm : m.row.covers d = true) (hn : n.row.covers d = true) :
    m = n := by
  obtain ⟨hopm, -⟩ := (row_covers_iff m d).1 hm
  obtain ⟨hopn, -⟩ := (row_covers_iff n d).1 hn
  exact mnemonic_code_injective (hopm.symm.trans hopn)

theorem lookup_eq_none_iff (d : Desc) : lookup d = none ↔ ∀ r ∈ opcodeTable, r.covers d = false := by
  simp [lookup]

/-- The search of the table finds the row that covers the descriptor: there is one at most. -/
theorem lookup_eq_some_iff (d : Desc) (m : Mnemonic) : lookup d = some m ↔ m.row.covers d = true := by
  have hfound : ∀ n, lookup d = some n → n.row.covers d = true := by
    intro n h
    obtain ⟨r, hr, rfl⟩ := Option.map_eq_some_iff.1 h
    rw [← eq_row_of_mem_opcodeTable r (List.mem_of_find?_eq_some hr)]
    exact (List.find?_eq_some_iff_append.1 hr).1
  refine ⟨hfound m, fun h => ?_⟩
  cases hl : lookup d with
  | none => simp [(lookup_eq_none_iff d).1 hl m.row (row_mem_opcodeTable m)] at h
  | some n => rw [eq_of_row_covers h (hfound n hl)]

end Sys2Proof
end

section
/-! Encoding and decoding undo each other (R61, R63 to R66, R68). -/

namespace Sys2Proof

theorem lookup_encodeDesc (i : Instr) : lookup (encodeDesc i) = some i.mnemonic := by
  cases i with
  | new seed => exact Laws.RowFound.new seed
  | reset => exact Laws.RowFound.reset
  | write data => exact Laws.RowFound.write data
  | sum32 => exact Laws.RowFound.sum32
  | sum pre => exact Laws.RowFound.sum pre
  | size => exact Laws.RowFound.size
  | blocksize => exact Laws.RowFound.blocksize
  | checksum seed data => exact Laws.RowFound.checksum seed data

@[simp] theorem seed_encodeDesc (i : Instr) : Desc.seed (encodeDesc i) = i.seedField := seed_mkDesc _ _ _ _

/-- R64: the operands of a command stand in its descriptor and payload. -/
theorem operands_encodeDesc (i : Instr) : operands i.mnemonic (encodeDesc i) i.payload = i := by
  cases i with
  | new seed => exact congrArg Instr.new (seed_encodeDesc (.new seed))
  | checksum seed data => exact congrArg (Instr.checksum · data) (seed_encodeDesc (.checksum seed data))
  | reset | write | sum32 | sum | size | blocksize => rfl

theorem decodeCommand_encodeCommand (i : Instr) (h : i.wellFormed = true) :
    decodeCommand (encodeCommand i) = .ok i :=
  (decodeCommand_eq_ok_iff _ i).2
    ⟨encodeCommand_wellFormed i h, i.mnemonic, lookup_encodeDesc i, operands_encodeDesc i⟩

/-- Settles O1: the framing finds the encoded pair at the head of the channel, and the pair decodes to its command. -/
theorem decodeEncodeRoundTrip : Obligations.DecodeEncodeRoundTrip := fun i rest h =>
  (decode_eq_ok_iff _ i rest).2
    ⟨encodeCommand i, takeCommand_bytes_append _ rest (encodeCommand_wellFormed i h),
      decodeCommand_encodeCommand i h⟩

section Operands
variable (m : Mnemonic) (d : Desc) (pay : List Byte)

@[simp] theorem mnemonic_operands : (operands m d pay).mnemonic = m := by cases m <;> rfl

theorem seedField_operands : (operands m d pay).seedField = if m.takesSeed then Desc.seed d else 0#32 := by
  cases m <;> rfl

theorem payload_operands : (operands m d pay).payload = if m.takesPayload then pay else [] := by
  cases m <;> rfl

/-- A row fixes what its operands do not carry, so nothing of the descriptor or the payload is lost (R68). -/
theorem encodeCommand_operands (hlen : pay.length = (Desc.len d).toNat) (h : m.row.covers d = true) :
    encodeCommand (operands m d pay) = ⟨d, pay⟩ := by
  obtain ⟨hop, hrsv, hseed, hzero⟩ := (row_covers_iff m d).1 h
  have hs : (operands m d pay).seedField = Desc.seed d := by
    rw [seedField_operands]
    split_ifs with ht
    · rfl
    · exact (hseed (by simpa using ht)).symm
  have hp : (operands m d pay).payload = pay := by
    rw [payload_operands]
    split_ifs with ht
    · rfl
    · exact (List.length_eq_zero_iff.1 (by rw [hlen, hzero (by simpa using ht)]; rfl)).symm
  rw [encodeCommand, encodeDesc, mnemonic_operands, hs, hp, hlen, BitVec.ofNat_toNat, BitVec.setWidth_eq, ← hop,
    ← hrsv, mkDesc_fields]

end Operands

/-- Settles O2: a decoded pair has the length it says and a row that covers it. -/
theorem decodedPairIsItsEncoding : Obligations.DecodedPairIsItsEncoding := by
  intro c i h
  obtain ⟨hw, m, hl, rfl⟩ := (decodeCommand_eq_ok_iff c i).1 h
  have hlen : c.pay.length = (Desc.len c.desc).toNat := by simpa [Command.wellFormed] using hw
  exact ⟨(encodeCommand_operands m c.desc c.pay hlen ((lookup_eq_some_iff _ m).1 hl)).symm,
    instr_wellFormed_of_decodeCommand c _ h⟩

/-- Settles O3: rows that cover one descriptor have its opcode, hence one mnemonic; and the search of the table, on
which decoding rests, finds the row that covers the descriptor. -/
theorem decodingFollowsOpcodeTable : Obligations.DecodingFollowsOpcodeTable := by
  refine ⟨fun d r q hr hq hdr hdq => ?_, fun c r hw hr h => ?_, fun c hw h => ?_⟩
  · rw [eq_row_of_mem_opcodeTable r hr, eq_row_of_mem_opcodeTable q hq,
      eq_of_row_covers (row_covers_of_match hr hdr) (row_covers_of_match hq hdq)]
  · exact decodeCommand_of_lookup c r.op hw ((lookup_eq_some_iff _ _).2 (row_covers_of_match hr h))
  · exact decodeCommand_of_lookup_none c hw
      ((lookup_eq_none_iff _).2 fun r hr => beq_eq_false_iff_ne.2 (h r hr))

end Sys2Proof
end

section
/-! The response to a command, by the opcode it was received with (R71, R73, R74). -/

namespace Sys2Proof.Machine

/-- A response has the form that R71, R73 and R74 give the response to a command of opcode `op`. -/
structure Response.FormedFor (r : Response) (op : Byte) : Prop where
  zero : r.zero = 0#16
  opcode : r.op = op
  status : r.status ≤ 0x03#8
  fault : r.status ≠ okCode → r.val = 0#32 ∧ r.cnt = 0#64
  payload : r.rpay ≠ [] → r.status = okCode ∧ op = Mnemonic.sum.code
  length : r.status = okCode → op = Mnemonic.sum.code → r.rpay.length = r.cnt.toNat

theorem okAnswer_formedFor (m : Mnemonic) (val : Word) (cnt : BitVec 64) (rpay : List Byte)
    (hpay : m ≠ .sum → rpay = []) (hsum : m = .sum → rpay.length = cnt.toNat) :
    (okAnswer m val cnt rpay).FormedFor m.code where
  zero := zero_mkResponseDesc _ _ _ _ _
  opcode := op_mkResponseDesc _ _ _ _ _
  status := by simp [okAnswer, okCode]
  fault h := absurd (status_mkResponseDesc _ _ _ _ _) h
  payload h := ⟨status_mkResponseDesc _ _ _ _ _, congrArg _ (not_imp_comm.1 hpay h)⟩
  length _ h := by rw [okAnswer, cnt_mkResponseDesc]; exact hsum (mnemonic_code_injective h)

theorem okAnswer_nil_formedFor (m : Mnemonic) (val : Word) (cnt : BitVec 64) (hm : m ≠ .sum) :
    (okAnswer m val cnt []).FormedFor m.code :=
  okAnswer_formedFor m val cnt [] (fun _ => rfl) fun h => absurd h hm

theorem cause_code_ne_okCode (f : Cause) : f.code ≠ okCode := by cases f <;> decide

theorem cause_code_le (f : Cause) : f.code ≤ 0x03#8 := by cases f <;> decide

theorem faultAnswer_formedFor (f : Cause) (op : Byte) : (faultAnswer f op).FormedFor op := by
  have hstatus : (faultAnswer f op).status = f.code := status_mkResponseDesc _ _ _ _ _
  exact {
    zero := zero_mkResponseDesc _ _ _ _ _
    opcode := op_mkResponseDesc _ _ _ _ _
    status := hstatus ▸ cause_code_le f
    fault := fun _ => ⟨val_mkResponseDesc _ _ _ _ _, cnt_mkResponseDesc _ _ _ _ _⟩
    payload := fun h => absurd rfl h
    length := fun h => absurd (hstatus.symm.trans h) (cause_code_ne_okCode f) }

/-- R72, R74: the payload of a successful `SUM` is the bytes given and the four of the digest, and `RD.CNT` holds
their number. -/
theorem okAnswer_sum_formedFor (pre : List Byte) (w : Word) (h : pre.length ≤ 2 ^ 64 - 5) :
    (okAnswer .sum 0#32 (BitVec.ofNat 64 (pre.length + 4)) (pre ++ digestBytes w)).FormedFor Mnemonic.sum.code := by
  refine okAnswer_formedFor _ _ _ _ (fun hm => absurd rfl hm) fun _ => ?_
  have hdigest : (digestBytes w).length = 4 := rfl
  rw [List.length_append, hdigest, BitVec.toNat_ofNat, Nat.mod_eq_of_lt (by omega)]

theorem answer_formedFor (i : Instr) (s : State) : (answer i s).FormedFor i.mnemonic.code := by
  cases i with
  | new | size | blocksize | checksum => exact okAnswer_nil_formedFor _ _ _ (by decide)
  | reset | sum32 =>
    rw [answer]
    split_ifs
    · exact okAnswer_nil_formedFor _ _ _ (by decide)
    · exact faultAnswer_formedFor _ _
  | write data =>
    rw [answer]
    split_ifs
    · exact faultAnswer_formedFor _ _
    · exact okAnswer_nil_formedFor _ _ _ (by decide)
    · exact faultAnswer_formedFor _ _
  | sum pre =>
    rw [answer]
    split_ifs with _ hl
    · exact faultAnswer_formedFor _ _
    · exact okAnswer_sum_formedFor _ _ (by omega)
    · exact faultAnswer_formedFor _ _

/-- A decoded command has the opcode of its row. -/
theorem op_of_decodeCommand (c : Command) (i : Instr) (h : decodeCommand c = .ok i) :
    Desc.op c.desc = i.mnemonic.code := by
  obtain ⟨-, m, hl, rfl⟩ := (decodeCommand_eq_ok_iff c i).1 h
  obtain ⟨hop, -⟩ := (row_covers_iff m c.desc).1 ((lookup_eq_some_iff _ m).1 hl)
  rw [hop, mnemonic_operands]

/-- A whole command, legal or not, is answered once, and the rest of the host's side stays. -/
theorem runCommand_answers (c : Command) (s : State) (hw : c.wellFormed = true) :
    ∃ t r, runCommand c s = .next t ∧ t.input = s.input ∧ t.por = s.por ∧ t.responses = s.responses ++ [r] ∧
      r.FormedFor (Desc.op c.desc) := by
  cases hd : decodeCommand c with
  | ok i =>
    obtain ⟨hresp, hinput, hpor⟩ := contextAfter_host i s
    refine ⟨_, answer i s, (runCommand_of_ok c i s hd).trans (exec_eq i s), hinput, hpor,
      congrArg (· ++ [answer i s]) hresp, ?_⟩
    rw [op_of_decodeCommand c i hd]
    exact answer_formedFor i s
  | error e =>
    exact ⟨_, _, runCommand_of_error c e s hw hd, rfl, rfl, rfl,
      faultAnswer_formedFor .illegalCommand (Desc.op c.desc)⟩

/-- Settles O7: the step frames the command and runs it, and every response has the form of R71, R73 and R74. -/
theorem everyCommandAnswersOnce : Obligations.EveryCommandAnswersOnce := by
  intro s c rest hp hw hinput
  obtain ⟨t, r, ht, hin, hpor, hresp, hr⟩ := runCommand_answers c (s.setInput rest) hw
  exact ⟨t, r, (step_of_bytes s c rest hp hw hinput).trans ht, hin, hpor.trans hp, hresp,
    hr.zero, hr.opcode, hr.status, hr.fault, hr.payload, hr.length⟩

end Sys2Proof.Machine
end

section
/-! The words of a block, and `Blocks` (R98, R99) as a fold over the groups of its input and, lane by lane, as a fold of
`Round` (R95). -/

namespace Sys2Proof.Machine

theorem le32At_drop (bs : List Byte) (k a : Nat) : le32At (bs.drop k) a = le32At bs (k + a) := by
  simp [le32At, List.getD, Nat.add_assoc]

theorem le32At_take (bs : List Byte) (n a : Nat) (h : a + 4 ≤ n) : le32At (bs.take n) a = le32At bs a := by
  have hget : ∀ i, i < n → (bs.take n).getD i 0#8 = bs.getD i 0#8 := fun i hi => by
    rw [List.getD, List.getElem?_take_of_lt hi, List.getD]
  rw [le32At, hget a (by omega), hget (a + 1) (by omega), hget (a + 2) (by omega), hget (a + 3) (by omega), le32At]

/-- A word of the group at `k` is a word of the whole input. -/
theorem le32At_group (bs : List Byte) (k a : Nat) (h : a + 4 ≤ 16) :
    le32At ((bs.drop k).take 16) a = le32At bs (k + a) := by
  rw [le32At_take _ _ _ h, le32At_drop]

/-- R96, R97: the block step over group `j`, by the words of the whole input. -/
theorem blockStep_group (v : Lanes) (bs : List Byte) (j : Nat) :
    blockStep v ((bs.drop (16 * j)).take 16) =
      ⟨laneRound v.v1 (le32At bs (4 * (4 * j + 0))), laneRound v.v2 (le32At bs (4 * (4 * j + 1))),
        laneRound v.v3 (le32At bs (4 * (4 * j + 2))), laneRound v.v4 (le32At bs (4 * (4 * j + 3)))⟩ := by
  have hword : ∀ l, l < 4 → le32At ((bs.drop (16 * j)).take 16) (4 * l) = le32At bs (4 * (4 * j + l)) :=
    fun l hl => by rw [le32At_group _ _ _ (by omega)]; congr 1; omega
  rw [← hword 0 (by decide), ← hword 1 (by decide), ← hword 2 (by decide), ← hword 3 (by decide)]
  rfl

/-- The first index apart from the others. -/
theorem foldl_range_succ {α : Type} (f : α → Nat → α) (a : α) (n : Nat) :
    (List.range (n + 1)).foldl f a = (List.range n).foldl (fun b j => f b (j + 1)) (f a 0) := by
  rw [List.range_succ_eq_map, List.foldl_cons, List.foldl_map]

/-- The accumulators are the fold of the block step over the complete groups. -/
theorem blocks_fst (v : Lanes) (bs : List Byte) :
    (blocks v bs).1 =
      (List.range (bs.length / 16)).foldl (fun w j => blockStep w ((bs.drop (16 * j)).take 16)) v := by
  induction v, bs using blocks_induction with
  | short v bs h => rw [blocks_of_lt v bs h, Nat.div_eq_of_lt h]; rfl
  | group v bs h ih =>
    have hcount : bs.length / 16 = (bs.drop 16).length / 16 + 1 := by rw [List.length_drop]; omega
    have hgroup : ∀ j, (bs.drop 16).drop (16 * j) = bs.drop (16 * (j + 1)) := fun j => by
      rw [List.drop_drop, Nat.mul_succ, Nat.add_comm]
    rw [blocks_of_ge v bs h, ih, hcount, foldl_range_succ]
    simp only [hgroup, Nat.mul_zero, List.drop_zero]

/-- Settles O26: the loop consumes the complete groups, one block step for each. -/
theorem blocksRunsOncePerGroup : Obligations.BlocksRunsOncePerGroup := fun v bs =>
  ⟨Prod.ext (blocks_fst v bs) (blocks_snd v bs), by rw [blocks_snd, List.length_drop]; omega⟩

/-- Settles O27: over complete groups the loop leaves nothing, so it goes on with the second part alone. -/
theorem blocksCompose : Obligations.BlocksCompose := by
  intro v as bs h
  have hrest : as.drop (blocks v as).2 = [] := by rw [List.drop_eq_nil_iff, blocks_snd]; omega
  rw [blocks_append, hrest, List.nil_append]

/-- R95: steps that give lane `l` its own word `x l j` are four folds, one for each lane. -/
theorem foldl_laneRound (x : Nat → Nat → Word) (js : List Nat) (v : Lanes) :
    js.foldl (fun w j => (⟨laneRound w.v1 (x 0 j), laneRound w.v2 (x 1 j), laneRound w.v3 (x 2 j),
      laneRound w.v4 (x 3 j)⟩ : Lanes)) v =
    ⟨js.foldl (fun a j => laneRound a (x 0 j)) v.v1, js.foldl (fun a j => laneRound a (x 1 j)) v.v2,
      js.foldl (fun a j => laneRound a (x 2 j)) v.v3, js.foldl (fun a j => laneRound a (x 3 j)) v.v4⟩ := by
  induction js generalizing v with
  | nil => rfl
  | cons j js ih => exact ih _

/-- Settles O28: each block step gives each lane its own word, so the fold of block steps is one fold for each lane. -/
theorem lanesAreIndependent : Obligations.LanesAreIndependent := by
  intro v bs
  rw [blocks_fst]
  simp only [blockStep_group]
  exact foldl_laneRound (fun l j => le32At bs (4 * (4 * j + l))) _ v

end Sys2Proof.Machine
end

section
/-! The tail mixer (R103) as two folds, and the digest combination (R108 to R110). -/

namespace Sys2Proof.Machine

/-- The word loop of `Tail`: the fold over the complete 4-byte groups, and the bytes after them. -/
theorem tailWords_eq : ∀ (h : Word) (bs : List Byte), tailWords h bs =
    ((List.range (bs.length / 4)).foldl (fun w j => tailWord w (le32At bs (4 * j))) h, bs.drop (4 * (bs.length / 4)))
  | h, b0 :: b1 :: b2 :: b3 :: bs => by
    have hcount : (b0 :: b1 :: b2 :: b3 :: bs).length / 4 = bs.length / 4 + 1 := by simp only [List.length_cons]; omega
    have hword : ∀ j, le32At (b0 :: b1 :: b2 :: b3 :: bs) (4 * (j + 1)) = le32At bs (4 * j) := fun j => by
      rw [Nat.mul_succ, Nat.add_comm]
      exact (le32At_drop (b0 :: b1 :: b2 :: b3 :: bs) 4 (4 * j)).symm
    rw [tailWords, tailWords_eq, hcount, foldl_range_succ]
    simp only [hword]
    rfl
  | _, [] | _, [_] | _, [_, _] | _, [_, _, _] => by simp [tailWords]

/-- Settles O29: the word loop is its fold, and the bytes that it leaves are the rest. -/
theorem tailTakesWordsThenBytes : Obligations.TailTakesWordsThenBytes := fun h bs => by
  rw [tail, tailWords_eq]

theorem combine_of_lt (seed : Word) (v : Lanes) (n : Nat) (bs : List Byte) (h : n < 16) :
    combine seed v n bs = fmix (tail (seed + Config.P5 + BitVec.ofNat 32 n) bs) := by
  rw [combine, startValue_of_lt seed v n h, lenWord]

theorem combine_of_ge (seed : Word) (v : Lanes) (n : Nat) (bs : List Byte) (h : 16 ≤ n) :
    combine seed v n bs = fmix (tail (merge v + BitVec.ofNat 32 n) bs) := by
  rw [combine, startValue_of_ge seed v n h, lenWord]

/-- Settles O30: in each case the closed form does not mention what is not read. -/
theorem startValueBySixteenBytes : Obligations.StartValueBySixteenBytes :=
  ⟨fun seed v w n bs h => ⟨(combine_of_lt seed v n bs h).trans (combine_of_lt seed w n bs h).symm,
      combine_of_lt seed v n bs h⟩,
    fun seed seed' v n bs h => ⟨(combine_of_ge seed v n bs h).trans (combine_of_ge seed' v n bs h).symm,
      combine_of_ge seed v n bs h⟩⟩

end Sys2Proof.Machine
end

section
/-! The units as arithmetic of natural numbers modulo `2^32` (R91), and `rotl32` bit by bit (R92). -/

namespace Sys2Proof.Machine

/-- `rotl32` on the number that a word stands for (R11). -/
def rotlNat (a r : Nat) : Nat := (a * 2 ^ r) % 2 ^ 32 ||| a / 2 ^ (32 - r)

theorem rotl32_toNat (a : Word) (r : Nat) : (rotl32 a r).toNat = rotlNat a.toNat r := by
  rw [rotl32, BitVec.toNat_or, BitVec.toNat_shiftLeft, BitVec.toNat_ushiftRight, Nat.shiftLeft_eq,
    Nat.shiftRight_eq_div_pow, rotlNat]

/-- What `Round`, `TailWord` and `TailByte` share: multiply and add, rotate, multiply (R94, R101, R102). -/
theorem mix_toNat (h x p q : Word) (r : Nat) :
    (rotl32 (h + x * p) r * q).toNat =
      rotlNat ((h.toNat + x.toNat * p.toNat) % 2 ^ 32) r * q.toNat % 2 ^ 32 := by
  rw [BitVec.toNat_mul, rotl32_toNat, BitVec.toNat_add, BitVec.toNat_mul, Nat.add_mod_mod]

/-- The xor with an own right shift that `Fmix` takes three times (R105). -/
def xorShift (h : Word) (k : Nat) : Word := h ^^^ (h >>> k)

/-- `xorShift` on the number that a word stands for. -/
def xorShiftNat (h k : Nat) : Nat := h ^^^ h / 2 ^ k

theorem xorShift_toNat (h : Word) (k : Nat) : (xorShift h k).toNat = xorShiftNat h.toNat k := by
  rw [xorShift, BitVec.toNat_xor, BitVec.toNat_ushiftRight, Nat.shiftRight_eq_div_pow, xorShiftNat]

theorem fmix_eq (h : Word) :
    fmix h = xorShift (xorShift (xorShift h 15 * Config.P2) 13 * Config.P3) 16 := (rfl)

theorem fmix_toNat (h : Word) : (fmix h).toNat =
    xorShiftNat (xorShiftNat (xorShiftNat h.toNat 15 * Config.P2.toNat % 2 ^ 32) 13 * Config.P3.toNat % 2 ^ 32) 16 := by
  rw [fmix_eq, xorShift_toNat, BitVec.toNat_mul, xorShift_toNat, BitVec.toNat_mul, xorShift_toNat]

theorem init_toNat (seed : Word) :
    (init seed).v1.toNat = (seed.toNat + Config.P1.toNat + Config.P2.toNat) % 2 ^ 32 ∧
    (init seed).v2.toNat = (seed.toNat + Config.P2.toNat) % 2 ^ 32 ∧
    (init seed).v3.toNat = seed.toNat ∧
    (init seed).v4.toNat = (seed.toNat + 2 ^ 32 - Config.P1.toNat) % 2 ^ 32 := by
  rw [init_v1, init_v2, init_v3, init_v4, BitVec.toNat_add, BitVec.toNat_add, BitVec.toNat_add, BitVec.toNat_sub,
    Nat.mod_add_mod]
  refine ⟨rfl, rfl, rfl, congrArg (· % 2 ^ 32) ?_⟩
  have := Config.P1.isLt
  omega

theorem merge_toNat (v : Lanes) : (merge v).toNat =
    (rotlNat v.v1.toNat 1 + rotlNat v.v2.toNat 7 + rotlNat v.v3.toNat 12 + rotlNat v.v4.toNat 18) % 2 ^ 32 := by
  simp only [merge, BitVec.toNat_add, rotl32_toNat, Nat.mod_add_mod]

theorem tailByte_toNat (h : Word) (b : Byte) : (tailByte h b).toNat =
    rotlNat ((h.toNat + b.toNat * Config.P5.toNat) % 2 ^ 32) 11 * Config.P1.toNat % 2 ^ 32 := by
  rw [tailByte, mix_toNat, byteWord_toNat]

/-- Settles O23: `Round` and `TailWord` are instances of `mix_toNat`; each other unit has its lemma above. -/
theorem datapathIsArithmeticModulo2Pow32 : Obligations.DatapathIsArithmeticModulo2Pow32 :=
  ⟨init_toNat, fun v x => mix_toNat v x _ _ 13, fun h w => mix_toNat h w _ _ 17, tailByte_toNat, merge_toNat,
    fmix_toNat⟩

/-- Settles O24: a bit that stays below the top comes from the left shift, a bit that passes it from the right shift. -/
theorem rotationMovesEveryBit : Obligations.RotationMovesEveryBit := by
  intro a r i hr0 hr hi
  rw [rotl32, BitVec.getLsbD_or, BitVec.getLsbD_shiftLeft, BitVec.getLsbD_ushiftRight]
  by_cases h : i + r < 32
  · have hright : a.getLsbD (32 - r + (i + r)) = false := BitVec.getLsbD_of_ge _ _ (by omega)
    rw [Nat.mod_eq_of_lt h, hright]
    simp [h]
  · have hmod : (i + r) % 32 = i + r - 32 := by omega
    have hback : 32 - r + (i + r - 32) = i := by omega
    have hlow : i + r - 32 < r := by omega
    rw [hmod, hback]
    simp [hlow]

end Sys2Proof.Machine
end

section
/-! The commands that act on the hasher context (R120 to R131): which encodings each accepts, what it answers, what it
leaves. -/

namespace Sys2Proof

/-- A well-formed pair with the opcode of a command is that command when the fields that its row fixes are zero, and
illegal otherwise (R65, R68). -/
theorem decodeCommand_of_op (m : Mnemonic) (c : Command) {zeros : Prop} [Decidable zeros] (hw : c.wellFormed = true)
    (hop : Desc.op c.desc = m.code)
    (hz : zeros ↔ Desc.rsv c.desc = 0#24 ∧ (m.takesSeed = false → Desc.seed c.desc = 0#32) ∧
      (m.takesPayload = false → Desc.len c.desc = 0#64)) :
    decodeCommand c =
      if zeros then .ok (operands m c.desc c.pay) else .error (.illegalCommand m.code) := by
  split_ifs with h
  · exact decodeCommand_of_lookup c m hw
      ((lookup_eq_some_iff _ m).2 ((row_covers_iff m c.desc).2 ⟨hop, hz.1 h⟩))
  · rw [← hop]
    refine decodeCommand_of_lookup_none c hw (Option.eq_none_iff_forall_ne_some.2 fun n hn => h ?_)
    obtain ⟨hopn, hfields⟩ := (row_covers_iff n c.desc).1 ((lookup_eq_some_iff _ n).1 hn)
    obtain rfl : n = m := mnemonic_code_injective (hopn.symm.trans hop)
    exact hz.2 hfields

namespace Machine

theorem okAnswer_hasFields (m : Mnemonic) (val : Word) (cnt : BitVec 64) (rpay : List Byte) :
    (okAnswer m val cnt rpay).hasFields 0x00#8 m.code val cnt rpay :=
  Response.hasFields_mk _ _ _ _ _

/-- A command that executes: its response, and the next state from what it leaves. -/
theorem exec_of_okAnswer {i : Instr} {s t : State} {m : Mnemonic} {val : Word} {cnt : BitVec 64} {rpay : List Byte}
    (ha : answer i s = okAnswer m val cnt rpay) (ht : contextAfter i s = t) :
    ∃ r : Response, r.hasFields 0x00#8 m.code val cnt rpay ∧
      exec i s = .next { t with responses := t.responses ++ [r] } :=
  ⟨answer i s, ha ▸ okAnswer_hasFields m val cnt rpay, by rw [exec_eq, ht, State.emit_eq]⟩

/-- A command that takes a fault: its response, and nothing else changes (R152). -/
theorem exec_of_faultAnswer {i : Instr} {s : State} {f : Cause} {op : Byte} (ha : answer i s = faultAnswer f op)
    (ht : contextAfter i s = s) :
    ∃ r : Response, r.isFault f.code op ∧ exec i s = .next { s with responses := s.responses ++ [r] } :=
  ⟨answer i s, ha ▸ Response.isFault_mk f.code op, by rw [exec_eq, ht, State.emit_eq]⟩

/-- The commands that read the context fault while `VALID = 0` (R155, R157). -/
theorem exec_of_unconstructed (i : Instr) {s : State} (hv : s.valid = false)
    (hi : i.mnemonic = .reset ∨ i.mnemonic = .write ∨ i.mnemonic = .sum32 ∨ i.mnemonic = .sum) :
    ∃ r : Response, r.isFault 0x02#8 i.mnemonic.code ∧
      exec i s = .next { s with responses := s.responses ++ [r] } := by
  have hnot : ¬ s.valid = true := by simp [hv]
  cases i with
  | reset | write => exact exec_of_faultAnswer (f := .notConstructed) (if_neg hnot) (if_neg hnot)
  | sum32 | sum => exact exec_of_faultAnswer (f := .notConstructed) (if_neg hnot) rfl
  | new | size | blocksize | checksum => simp [Instr.mnemonic] at hi

/-- Settles O12: `contextAfter` says what is left, and the row of `NEW` leaves `SEED` free. -/
theorem newConstructsHasher : Obligations.NewConstructsHasher := by
  refine ⟨fun seed s => ?_, fun c hw hop => decodeCommand_of_op .new c hw hop ?_⟩
  · have hnew : contextAfter (.new seed) s =
        { s with valid := true, seed := seed, v := init seed, len := 0#64, cnt := 0#4 } :=
      State.restart_eq (s.construct seed) (init seed)
    rw [← init_eq]
    exact exec_of_okAnswer (m := .new) rfl hnew
  · simp [Mnemonic.takesSeed, Mnemonic.takesPayload, Desc.rsv, Desc.len]

/-- Settles O13: `RESET` by the flag `VALID`, and its row has every other field zero. -/
theorem resetRestartsHasher : Obligations.ResetRestartsHasher := by
  refine ⟨fun s hv => ?_, fun s hv => exec_of_unconstructed .reset hv (by decide),
    fun c hw hop => decodeCommand_of_op .reset c hw hop ?_⟩
  · have hreset : contextAfter .reset s = { s with v := init s.seed, len := 0#64, cnt := 0#4 } :=
      (if_pos hv).trans (State.restart_eq s (init s.seed))
    rw [← init_eq]
    exact (exec_of_okAnswer (i := .reset) (if_pos hv) hreset :)
  · simp [Mnemonic.takesSeed, Mnemonic.takesPayload, Desc.rsv, Desc.seed, Desc.len]

section Write
variable (data : List Byte) {s : State}

theorem answer_write_of_overflow (hv : s.valid = true) (h : 2 ^ 64 - 1 < s.len.toNat + data.length) :
    answer (.write data) s = faultAnswer .lengthOverflow Mnemonic.write.code := by
  rw [answer, if_pos hv, if_pos h]

theorem answer_write_of_le (hv : s.valid = true) (h : s.len.toNat + data.length ≤ 2 ^ 64 - 1) :
    answer (.write data) s = okAnswer .write 0#32 (BitVec.ofNat 64 data.length) [] := by
  rw [answer, if_pos hv, if_neg (Nat.not_lt.2 h)]

theorem contextAfter_write_of_valid (hv : s.valid = true) : contextAfter (.write data) s = written data s :=
  if_pos hv

end Write

/-- Settles O14: the two refusals by the flag and the new length, and the row of `WRITE` leaves `LEN` free. -/
theorem writeRefusals : Obligations.WriteRefusals := by
  refine ⟨fun data s hv => exec_of_unconstructed (.write data) hv (.inr (.inl rfl)), fun data s hv h => ?_,
    fun c hw hop => decodeCommand_of_op .write c hw hop ?_⟩
  · exact exec_of_faultAnswer (answer_write_of_overflow data hv h)
      ((contextAfter_write_of_valid data hv).trans (written_of_overflow data s h))
  · simp [Mnemonic.takesSeed, Mnemonic.takesPayload, Desc.rsv, Desc.seed]

/-- Settles O17: `SUM32` by the flag `VALID`, and its row has every other field zero. -/
theorem sum32ReturnsDigest : Obligations.Sum32ReturnsDigest := by
  refine ⟨fun s hv => exec_of_okAnswer (m := .sum32) (if_pos hv) rfl,
    fun s hv => exec_of_unconstructed .sum32 hv (by decide),
    fun c hw hop => decodeCommand_of_op .sum32 c hw hop ?_⟩
  · simp [Mnemonic.takesSeed, Mnemonic.takesPayload, Desc.rsv, Desc.seed, Desc.len]

/-- Settles O18: `SUM` by the flag and the number of bytes given, and its row leaves `LEN` free. -/
theorem sumReturnsPrefixAndDigest : Obligations.SumReturnsPrefixAndDigest := by
  refine ⟨fun pre s hv h => exec_of_okAnswer (m := .sum) ?_ rfl,
    fun pre s hv h => exec_of_faultAnswer (f := .lengthOverflow) ?_ rfl,
    fun pre s hv => exec_of_unconstructed (.sum pre) hv (.inr (.inr (.inr rfl))),
    fun c hw hop => decodeCommand_of_op .sum c hw hop ?_⟩
  · rw [answer, if_pos hv, if_neg (Nat.not_lt.2 h)]; rfl
  · rw [answer, if_pos hv, if_pos h]; rfl
  · simp [Mnemonic.takesSeed, Mnemonic.takesPayload, Desc.rsv, Desc.seed]

end Machine

end Sys2Proof
end

section
/-! What an accepted `WRITE` leaves, path by path: registers, pending bytes and every cell of the buffer (R122 to R124;
cells at or above the new `CNT` by log entry 2). -/

namespace Sys2Proof.Machine

section Written
variable {data : List Byte} {s : State}

theorem written_pend_of_short (hwf : s.buf.wf) (h : s.len.toNat + data.length ≤ 2 ^ 64 - 1)
    (hc : s.cnt.toNat + data.length < 16) : (written data s).pend = s.pend ++ data := by
  rw [(written_absorbs data s hwf h).pend, blocks_of_lt _ _ (by rwa [List.length_append, pend_length]),
    List.drop_zero]

theorem written_pend_of_long (hwf : s.buf.wf) (h : s.len.toNat + data.length ≤ 2 ^ 64 - 1)
    (hc : 16 ≤ s.cnt.toNat + data.length) : (written data s).pend = longRest data s := by
  rw [(written_absorbs data s hwf h).pend, longRest_eq data s hwf hc]

theorem longResult_snd : (longResult data s).2 = 16 * ((data.length - (16 - s.cnt.toNat)) / 16) := by
  rw [longResult, blocks_snd, List.length_drop]

/-- The bytes after the head and the direct blocks. -/
theorem longRest_eq_drop : longRest data s =
    data.drop (16 - s.cnt.toNat + 16 * ((data.length - (16 - s.cnt.toNat)) / 16)) := by
  rw [longRest, longResult_snd, List.drop_drop]

theorem longRest_length : (longRest data s).length = (data.length - (16 - s.cnt.toNat)) % 16 := by
  rw [longRest_eq_drop, List.length_drop]; omega

/-- One block from the buffer, then the direct blocks. -/
theorem longResult_fst (hwf : s.buf.wf) (hc : 16 ≤ s.cnt.toNat + data.length) : (longResult data s).1 =
    (blocks (blockStep s.v (s.pend ++ data.take (16 - s.cnt.toNat))) ((data.drop (16 - s.cnt.toNat)).take
      (16 * ((data.length - (16 - s.cnt.toNat)) / 16)))).1 := by
  rw [longResult, headBuf_range data s hwf hc, ← blocks_fst_take, List.length_drop]

/-- The head fills the cells `CNT .. 15`. -/
theorem headBuf_read (hwf : s.buf.wf) (hc : 16 ≤ s.cnt.toNat + data.length) (a : Nat) :
    (headBuf data s).read a =
      if s.cnt.toNat ≤ a ∧ a < 16 then data.getD (a - s.cnt.toNat) 0#8 else s.buf.read a := by
  have hcnt := s.cnt.isLt
  have hfull : s.cnt.toNat + (data.take (16 - s.cnt.toNat)).length = 16 := by rw [List.length_take]; omega
  rw [headBuf, Memory.read_writeBytes _ _ _ _ hwf hfull.le, hfull]
  refine if_ctx_congr Iff.rfl (fun ha => ?_) fun _ => rfl
  rw [List.getD, List.getElem?_take_of_lt (by omega), List.getD]

/-- The remainder covers the cells from 0, the head is left above it. -/
theorem longBuf_read (hwf : s.buf.wf) (hc : 16 ≤ s.cnt.toNat + data.length) (a : Nat) :
    ((headBuf data s).writeBytes 0 (longRest data s)).read a =
      if a < (longRest data s).length then (longRest data s).getD a 0#8
      else if s.cnt.toNat ≤ a ∧ a < 16 then data.getD (a - s.cnt.toNat) 0#8 else s.buf.read a := by
  have hfits : 0 + (longRest data s).length ≤ Config.bufCap := by
    rw [Nat.zero_add]; exact (longRest_lt data s).le
  rw [Memory.read_writeBytes _ _ _ _ (headBuf_wf data s hwf) hfits, headBuf_read hwf hc]
  simp only [Nat.zero_le, true_and, Nat.zero_add, Nat.sub_zero]

end Written

/-- Settles O15: the effect is `written_of_short`; what is pending and what the cells hold are the lemmas about it. -/
theorem writeShortPathAppends : Obligations.WriteShortPathAppends := by
  intro data s hv hwf hlen hshort
  have hc : s.cnt.toNat + data.length < 16 := by have := s.cnt.isLt; omega
  have hw := written_of_short data s hlen hc
  obtain ⟨r, hr, he⟩ := exec_of_okAnswer (answer_write_of_le data hv hlen)
    ((contextAfter_write_of_valid data hv).trans hw)
  refine ⟨_, s.buf.writeBytes s.cnt.toNat data, r, hr, he, rfl, ?_, setCnt_toNat s _ hc, ?_, fun a ha => ?_⟩
  · exact addLen_toNat s _ hlen
  · exact hw ▸ written_pend_of_short hwf hlen hc
  · exact (Memory.read_writeBytes _ _ _ _ hwf hc.le).trans (if_neg (by omega))

/-- Settles O16: the effect is `written_of_long`, in terms of `longResult`, `longRest` and `headBuf`, each of which has
its closed form above. -/
theorem writeLongPathProcessesBlocks : Obligations.WriteLongPathProcessesBlocks := by
  intro data s hv hwf hlen hc f k rem
  have hw := written_of_long data s hlen hc
  obtain ⟨r, hr, he⟩ := exec_of_okAnswer (answer_write_of_le data hv hlen)
    ((contextAfter_write_of_valid data hv).trans hw)
  refine ⟨_, (headBuf data s).writeBytes 0 (longRest data s), r, hr, he, ?_, ?_, ?_, ?_, fun a => ?_⟩
  · rw [longResult_fst hwf hc, longRest_length]; rfl
  · exact addLen_toNat s _ hlen
  · have := s.cnt.isLt
    exact (setCnt_toNat s _ (longRest_lt data s)).trans (by rw [longRest_length]; omega)
  · exact (hw ▸ written_pend_of_long hwf hlen hc).trans longRest_eq_drop
  · refine (longBuf_read hwf hc a).trans ?_
    rw [longRest_length, longRest_eq_drop, List.getD, List.getElem?_drop, ← List.getD]

end Sys2Proof.Machine
end

section
/-! Runs over whole commands: what one command, legal or not, makes of a state, what a sequence of them does, and their
responses. `runSteps_channel` says once what the machine does with a channel of commands, so that the proofs about
sequences are inductions over the list and speak of no step. -/

namespace Sys2Proof.Machine

section OneCommand
variable (c : Command) (s : State)

/-- The response to a whole command (R65, R154). -/
def commandAnswer : Response :=
  match decodeCommand c with
  | .ok i => answer i s
  | .error _ => faultAnswer .illegalCommand (Desc.op c.desc)

/-- The context after a whole command; an illegal one leaves it (R152). -/
def commandContext : State :=
  match decodeCommand c with
  | .ok i => contextAfter i s
  | .error _ => s

/-- The state after a whole command that has been consumed. -/
def afterCommand : State := (commandContext c s).emit (commandAnswer c s)

theorem runCommand_eq (hw : c.wellFormed = true) : runCommand c s = .next (afterCommand c s) := by
  rw [afterCommand, commandContext, commandAnswer]
  cases hd : decodeCommand c with
  | ok i => exact (runCommand_of_ok c i s hd).trans (exec_eq i s)
  | error e => exact runCommand_of_error c e s hw hd

variable {c}

theorem commandContext_of_ok {i : Instr} (h : decodeCommand c = .ok i) : commandContext c s = contextAfter i s := by
  rw [commandContext, h]

theorem commandAnswer_of_ok {i : Instr} (h : decodeCommand c = .ok i) : commandAnswer c s = answer i s := by
  rw [commandAnswer, h]

theorem commandContext_of_error {e : DecodeError} (h : decodeCommand c = .error e) : commandContext c s = s := by
  rw [commandContext, h]

end OneCommand

theorem restart_setInput (s : State) (v : Lanes) (bs : List Byte) :
    (s.setInput bs).restart v = (s.restart v).setInput bs := rfl

/-- No command looks at the bytes that wait behind it. -/
theorem contextAfter_setInput (i : Instr) (s : State) (bs : List Byte) :
    contextAfter i (s.setInput bs) = (contextAfter i s).setInput bs := by
  cases i with
  | reset =>
    rw [contextAfter, contextAfter, State.setInput_valid, State.setInput_seed, restart_setInput]
    split_ifs <;> rfl
  | write data =>
    simp only [contextAfter, written, State.setInput_valid, State.setInput_len, State.setInput_cnt]
    split_ifs <;> rfl
  | new | sum32 | sum | size | blocksize | checksum => rfl

theorem afterCommand_setInput (c : Command) (s : State) (bs : List Byte) :
    afterCommand c (s.setInput bs) = (afterCommand c s).setInput bs := by
  cases hd : decodeCommand c with
  | ok i =>
    rw [afterCommand, afterCommand, commandContext_of_ok _ hd, commandContext_of_ok _ hd, contextAfter_setInput,
      commandAnswer_of_ok _ hd, commandAnswer_of_ok _ hd,
      answer_congr i (s := s.setInput bs) (t := s) ⟨rfl, fun _ => ⟨rfl, rfl, rfl, rfl, rfl⟩⟩]
    rfl
  | error e => simp only [afterCommand, commandContext, commandAnswer, hd]; rfl

/-- A command leaves the host's side as it is, but for its response. -/
theorem afterCommand_host (c : Command) (s : State) :
    (afterCommand c s).responses = s.responses ++ [commandAnswer c s] ∧ (afterCommand c s).input = s.input ∧
      (afterCommand c s).por = s.por := by
  cases hd : decodeCommand c with
  | ok i =>
    obtain ⟨hresp, hinput, hpor⟩ := contextAfter_host i s
    rw [afterCommand, commandContext_of_ok s hd]
    exact ⟨congrArg (· ++ _) hresp, hinput, hpor⟩
  | error e => rw [afterCommand, commandContext_of_error s hd]; exact ⟨rfl, rfl, rfl⟩

/-- The state after a sequence of commands that have been consumed. -/
def afterCommands (cs : List Command) (s : State) : State := cs.foldl (fun s c => afterCommand c s) s

/-- The responses to a sequence of commands, in order. -/
def answersTo : List Command → State → List Response
  | [], _ => []
  | c :: cs, s => commandAnswer c s :: answersTo cs (afterCommand c s)

section Sequence
variable (c : Command) (cs ds : List Command) (s : State)

@[simp] theorem afterCommands_nil : afterCommands [] s = s := rfl

@[simp] theorem afterCommands_cons : afterCommands (c :: cs) s = afterCommands cs (afterCommand c s) := rfl

theorem answersTo_append : answersTo (cs ++ ds) s = answersTo cs s ++ answersTo ds (afterCommands cs s) := by
  induction cs generalizing s with
  | nil => rfl
  | cons c cs ih => exact congrArg _ (ih _)

@[simp] theorem answersTo_length : (answersTo cs s).length = cs.length := by
  induction cs generalizing s with
  | nil => rfl
  | cons c cs ih => exact congrArg (· + 1) (ih _)

/-- One response for each command, and the rest of the host's side stays (R71, R182). -/
theorem afterCommands_host :
    (afterCommands cs s).responses = s.responses ++ answersTo cs s ∧ (afterCommands cs s).input = s.input ∧
      (afterCommands cs s).por = s.por := by
  induction cs generalizing s with
  | nil => exact ⟨(List.append_nil _).symm, rfl, rfl⟩
  | cons c cs ih =>
    obtain ⟨hresp, hinput, hpor⟩ := ih (afterCommand c s)
    obtain ⟨hresp', hinput', hpor'⟩ := afterCommand_host c s
    exact ⟨by rw [afterCommands_cons, hresp, hresp', List.append_assoc]; rfl, hinput.trans hinput',
      hpor.trans hpor'⟩

end Sequence

/-- A channel of well-formed commands is run command by command (R55, R62, R182). -/
theorem runSteps_channel (cs : List Command) (s : State) (rest : List Byte) (hp : s.por = false)
    (hw : ∀ c ∈ cs, c.wellFormed = true) (h : s.input = channelBytes cs ++ rest) :
    runSteps cs.length s = .next (afterCommands cs (s.setInput rest)) := by
  induction cs generalizing s with
  | nil => rw [← show s.input = rest from h]; rfl
  | cons c cs ih =>
    have hbytes : s.input = c.bytes ++ (channelBytes cs ++ rest) := by
      rw [h, channelBytes, List.flatMap_cons, List.append_assoc]; rfl
    obtain ⟨hwc, hwcs⟩ := List.forall_mem_cons.1 hw
    obtain ⟨-, hinput, hpor⟩ := afterCommand_host c (s.setInput (channelBytes cs ++ rest))
    rw [List.length_cons, runSteps_of_step _ _ _
        ((step_of_bytes s c _ hp hwc hbytes).trans (runCommand_eq c _ hwc)),
      ih _ (hpor.trans hp) hwcs hinput, ← afterCommand_setInput]
    rfl

section Between
variable (first last : Instr) (cs : List Command) (s : State)

/-- The state after a sequence of commands that stands between two others (R133, R134). -/
def afterBetween : State := afterCommands (encodeCommand first :: cs ++ [encodeCommand last]) s

theorem runSteps_between (rest : List Byte) (hp : s.por = false) (hf : first.wellFormed = true)
    (hl : last.wellFormed = true) (hw : ∀ c ∈ cs, c.wellFormed = true)
    (h : s.input = encode first ++ channelBytes cs ++ encode last ++ rest) :
    runSteps (cs.length + 2) s = .next (afterBetween first last cs (s.setInput rest)) := by
  have hwall : ∀ c ∈ encodeCommand first :: cs ++ [encodeCommand last], c.wellFormed = true := by
    simpa [or_imp, forall_and] using ⟨encodeCommand_wellFormed first hf, hw, encodeCommand_wellFormed last hl⟩
  rw [afterBetween, ← runSteps_channel _ s rest hp hwall (by simp [h, channelBytes, encode])]
  simp

theorem afterBetween_input : (afterBetween first last cs s).input = s.input := by
  obtain ⟨-, hinput, -⟩ := afterCommands_host (encodeCommand first :: cs ++ [encodeCommand last]) s
  exact hinput

theorem afterBetween_responses (hf : first.wellFormed = true) (hl : last.wellFormed = true) :
    (afterBetween first last cs s).responses =
      s.responses ++ [answer first s] ++ answersTo cs (afterCommand (encodeCommand first) s) ++
        [answer last (afterCommands cs (afterCommand (encodeCommand first) s))] := by
  obtain ⟨hresp, -⟩ := afterCommands_host (encodeCommand first :: cs ++ [encodeCommand last]) s
  rw [afterBetween, hresp, answersTo_append]
  simp [answersTo, commandAnswer_of_ok _ (decodeCommand_encodeCommand first hf),
    commandAnswer_of_ok _ (decodeCommand_encodeCommand last hl)]

theorem afterCommand_encodeCommand (i : Instr) (h : i.wellFormed = true) :
    afterCommand (encodeCommand i) s = (contextAfter i s).emit (answer i s) := by
  have hd := decodeCommand_encodeCommand i h
  rw [afterCommand, commandContext_of_ok s hd, commandAnswer_of_ok s hd]

end Between

end Sys2Proof.Machine
end

section
/-! Streaming equivalence (R133): a sequence of commands after `NEW` or `RESET` absorbs its chunks, and the digest of a
context that stands for an input is the hash of that input. -/

namespace Sys2Proof.Machine

/-- The digest of a context is the hash of the input that it stands for (R32, R111, R113). -/
theorem digest_of_represents {s : State} {B : List Byte} (h : s.Represents B) : s.digest = hash32 s.seed B := by
  obtain ⟨hlen, hlanes, hpend⟩ := (represents_iff s B).1 h
  rw [State.digest, hlen, hlanes, hpend, hash32]

/-- A constructed hasher with this seed that stands for this input. -/
structure Hashing (seed : Word) (B : List Byte) (s : State) : Prop where
  valid : s.valid = true
  seed_eq : s.seed = seed
  buf_wf : s.buf.wf
  represents : s.Represents B

theorem Hashing.answer_sum32 {seed : Word} {B : List Byte} {s : State} (h : Hashing seed B s) :
    answer .sum32 s = okAnswer .sum32 (hash32 seed B) 0#64 [] := by
  rw [answer, if_pos h.valid, digest_of_represents h.represents, h.seed_eq]

@[simp] theorem hashing_emit (seed : Word) (B : List Byte) (s : State) (r : Response) :
    Hashing seed B (s.emit r) ↔ Hashing seed B s :=
  ⟨fun ⟨hv, hs, hb, hr⟩ => ⟨hv, hs, hb, (represents_emit s B r).1 hr⟩,
    fun ⟨hv, hs, hb, hr⟩ => ⟨hv, hs, hb, (represents_emit s B r).2 hr⟩⟩

theorem contextAfter_reset_represents (s : State) (hv : s.valid = true) :
    (contextAfter .reset s).Represents [] := by
  rw [contextAfter, if_pos hv]
  exact restart_represents_nil s

/-- `NEW`, and `RESET` of a hasher with that seed, start an empty input (R120, R121). -/
theorem contextAfter_hashing_nil {first : Instr} {seed : Word} {s : State}
    (hfirst : first = .new seed ∨ (first = .reset ∧ s.valid = true ∧ s.seed = seed)) (hwf : s.buf.wf) :
    Hashing seed [] (contextAfter first s) := by
  rcases hfirst with rfl | ⟨rfl, hv, rfl⟩
  · exact ⟨rfl, rfl, hwf, contextAfter_new_represents seed s⟩
  · exact ⟨(contextAfter_valid .reset s).2 (.inl hv), contextAfter_seed .reset s (by decide),
      contextAfter_buf_wf .reset s hwf, contextAfter_reset_represents s hv⟩

section Chunk
variable {c : Command}

theorem chunk_of_error {e : DecodeError} (hd : decodeCommand c = .error e) : chunk c = [] := by
  rw [chunk, hd]

theorem mnemonic_ne_new_of_continues {i : Instr} (hc : continues c) (hd : decodeCommand c = .ok i) :
    i.mnemonic ≠ .new := by
  obtain ⟨-, hnew, -⟩ := hc
  cases i with
  | new seed => exact absurd hd (hnew seed)
  | reset | write | sum32 | sum | size | blocksize | checksum => simp [Instr.mnemonic]

/-- What a command of a streaming sequence absorbs is its chunk, as long as the length fits (R122, R133). -/
theorem absorbed_of_continues {i : Instr} (s : State) (B : List Byte) (hc : continues c)
    (hd : decodeCommand c = .ok i) (hlen : s.len.toNat + (chunk c).length ≤ 2 ^ 64 - 1) :
    absorbed s B i = B ++ chunk c := by
  obtain ⟨-, hnew, hreset⟩ := hc
  rw [chunk, hd] at hlen ⊢
  cases i with
  | new seed => exact absurd hd (hnew seed)
  | reset => exact absurd hd hreset
  | write data => exact if_pos hlen
  | sum32 | sum | size | blocksize | checksum => exact (List.append_nil B).symm

end Chunk

theorem Hashing.afterCommand {seed : Word} {B : List Byte} {s : State} {c : Command} (h : Hashing seed B s)
    (hc : continues c) (hlen : (B ++ chunk c).length < 2 ^ 64) :
    Hashing seed (B ++ chunk c) (afterCommand c s) := by
  rw [Machine.afterCommand, hashing_emit]
  cases hd : decodeCommand c with
  | error e => rwa [commandContext_of_error s hd, chunk_of_error hd, List.append_nil]
  | ok i =>
    have hfits : s.len.toNat + (chunk c).length ≤ 2 ^ 64 - 1 := by
      rw [h.represents.len_eq, ← List.length_append]; omega
    rw [commandContext_of_ok s hd, ← absorbed_of_continues s B hc hd hfits]
    exact ⟨(contextAfter_valid i s).2 (.inl h.valid),
      (contextAfter_seed i s (mnemonic_ne_new_of_continues hc hd)).trans h.seed_eq,
      contextAfter_buf_wf i s h.buf_wf, contextAfter_represents i s B h.valid h.buf_wf h.represents⟩

/-- A streaming sequence absorbs its chunks, one after the other. -/
theorem Hashing.afterCommands {seed : Word} {B : List Byte} {s : State} (cs : List Command) (h : Hashing seed B s)
    (hc : ∀ c ∈ cs, continues c) (hlen : (B ++ cs.flatMap chunk).length < 2 ^ 64) :
    Hashing seed (B ++ cs.flatMap chunk) (afterCommands cs s) := by
  induction cs generalizing B s with
  | nil => simpa using h
  | cons c cs ih =>
    obtain ⟨hcc, hccs⟩ := List.forall_mem_cons.1 hc
    rw [List.flatMap_cons, ← List.append_assoc] at hlen ⊢
    have hfirst : (B ++ chunk c).length < 2 ^ 64 := by rw [List.length_append] at hlen; omega
    exact ih (h.afterCommand hcc hfirst) hccs hlen

/-- Settles O34: the first command starts an empty input, the others absorb their chunks (`Hashing.afterCommands`), and
the last returns the digest, which is the hash of what was absorbed. -/
theorem streamingEqualsOneShot : Obligations.StreamingEqualsOneShot := by
  intro s first seed cs rest hp hwf hfirst hc hlen h
  have hwfirst : first.wellFormed = true := by rcases hfirst with rfl | ⟨rfl, -, -⟩ <;> rfl
  have hstart : Hashing seed [] (afterCommand (encodeCommand first) (s.setInput rest)) := by
    rw [afterCommand_encodeCommand _ _ hwfirst, hashing_emit]
    exact contextAfter_hashing_nil hfirst hwf
  have hlast := (hstart.afterCommands cs hc hlen).answer_sum32
  have hrun := runSteps_between first .sum32 cs s rest hp hwfirst rfl (fun c hcs => (hc c hcs).1) h
  have hresp := afterBetween_responses first .sum32 cs (s.setInput rest) hwfirst rfl
  refine ⟨_, [answer first (s.setInput rest)] ++ answersTo cs (afterCommand (encodeCommand first) (s.setInput rest)),
    okAnswer .sum32 (hash32 seed (cs.flatMap chunk)) 0#64 [], hrun, afterBetween_input .., ?_, by simp,
    okAnswer_hasFields .., fun u => ⟨answer (.checksum seed (cs.flatMap chunk)) u, ?_, exec_eq _ u⟩⟩
  · rw [hresp, hlast, ← List.append_assoc]; rfl
  · obtain ⟨-, -, -, hval, -⟩ := okAnswer_hasFields .sum32 (hash32 seed (cs.flatMap chunk)) 0#64 []
    rw [hval]
    exact okAnswer_hasFields ..

end Sys2Proof.Machine
end

section
/-! Replay after `RESET` (R135). -/

namespace Sys2Proof.Machine

/-- Contexts of one view, given the same host's side. -/
theorem twins_of_sameView {s t : State} (hs : s.buf.wf) (ht : t.buf.wf) (h : s.SameView t) (por : Bool)
    (bs : List Byte) (rs : List Response) :
    Twins { s with por := por, input := bs, responses := rs } { t with por := por, input := bs, responses := rs } :=
  ⟨hs, ht, h, rfl, rfl, rfl⟩

/-- Settles O37: both leave a fresh context of the same seed, and states of the same view run alike. -/
theorem resetEqualsFreshNew : Obligations.ResetEqualsFreshNew := by
  intro s u s' u' bs k hv hs hu hreset hnew
  rw [exec_eq, Host.Outcome.next.injEq] at hreset hnew
  subst hreset hnew
  have hview : (contextAfter .reset s).SameView (contextAfter (.new s.seed) u) := by
    rw [contextAfter, contextAfter, if_pos hv]
    exact restart_sameView (init s.seed) hv rfl
  exact (twins_of_sameView (contextAfter_buf_wf .reset s hs) (contextAfter_buf_wf (.new s.seed) u hu) hview
    false bs []).runSteps k

end Sys2Proof.Machine
end

section
/-! Commands that leave the context alone, told by the responses they got (R134). -/

namespace Sys2Proof.Machine

/-- An empty `WRITE` changes nothing (R123). -/
theorem written_nil (s : State) : written [] s = s := by
  have hlen := s.len.isLt
  rw [written_of_short [] s (by simp only [List.length_nil]; omega) (by simpa using s.cnt.isLt)]
  simp [State.ext_iff, Memory.writeBytes]

/-- A `WRITE` that changes the context has a payload and is answered `OK` (R134, R152). -/
theorem contextAfter_write_of_quiet (data : List Byte) (s : State)
    (h : data = [] ∨ (answer (.write data) s).status ≠ okCode) : contextAfter (.write data) s = s := by
  rw [contextAfter]
  split_ifs with hv
  · rcases h with rfl | h
    · exact written_nil s
    · refine written_of_overflow data s (not_le.1 fun hl => h ?_)
      rw [answer_write_of_le data hv hl]
      exact status_mkResponseDesc _ _ _ _ _
  · rfl

theorem commandContext_of_quiet (c : Command) (s : State) (h : quiet c (commandAnswer c s)) :
    commandContext c s = s := by
  obtain ⟨-, h⟩ := h
  cases hd : decodeCommand c with
  | error e => exact commandContext_of_error s hd
  | ok i =>
    rw [hd, commandAnswer_of_ok s hd] at h
    rw [commandContext_of_ok s hd]
    cases i with
    | new | reset => exact h.elim
    | write data => exact contextAfter_write_of_quiet data s h
    | sum32 | sum | size | blocksize | checksum => rfl

/-- Quiet commands leave states of the same view (R128). -/
theorem afterCommands_sameView (cs : List Command) (s : State)
    (h : ∀ p ∈ cs.zip (answersTo cs s), quiet p.1 p.2) : s.SameView (afterCommands cs s) := by
  induction cs generalizing s with
  | nil => exact ⟨rfl, fun _ => ⟨rfl, rfl, rfl, rfl, rfl⟩⟩
  | cons c cs ih =>
    obtain ⟨hc, hcs⟩ := List.forall_mem_cons.1 h
    have hafter : afterCommand c s = s.emit (commandAnswer c s) := by
      rw [afterCommand, commandContext_of_quiet c s hc]
    rw [hafter] at hcs
    rw [afterCommands_cons, hafter]
    exact ih _ hcs

theorem wellFormed_of_quiet {cs : List Command} {rs : List Response} (hlen : rs.length = cs.length)
    (h : ∀ p ∈ cs.zip rs, quiet p.1 p.2) : ∀ c ∈ cs, c.wellFormed = true := by
  intro c hc
  rw [← List.map_fst_zip (l₁ := cs) (l₂ := rs) hlen.ge] at hc
  obtain ⟨p, hp, rfl⟩ := List.mem_map.1 hc
  obtain ⟨hw, -⟩ := h p hp
  exact hw

/-- Settles O38: the first `SUM32` and the quiet commands leave a state of the same view, in which the last `SUM32` has
the same answer. -/
theorem idempotentObservation : Obligations.IdempotentObservation := by
  intro s t cs rest r r' rs hp h hlen hrun hresp hq
  rw [runSteps_between .sum32 .sum32 cs s rest hp rfl rfl (wellFormed_of_quiet hlen hq) h,
    Host.Outcome.next.injEq] at hrun
  have hall := afterBetween_responses .sum32 .sum32 cs (s.setInput rest) rfl rfl
  rw [hrun, hresp, afterCommand_encodeCommand _ _ rfl] at hall
  obtain ⟨hinit, hr'⟩ := List.append_inj' hall rfl
  obtain ⟨hhead, hrs⟩ := List.append_inj' hinit (by rw [hlen, answersTo_length])
  obtain ⟨-, hr⟩ := List.append_inj' hhead rfl
  rw [hrs] at hq
  rw [List.singleton_inj.1 hr, List.singleton_inj.1 hr', ← answer_congr .sum32 (afterCommands_sameView cs _ hq)]
  rfl

end Sys2Proof.Machine
end

section
/-! The commands that touch no state (R140 to R145). -/

namespace Sys2Proof.Machine

/-- The whole algorithm on the complete groups and the bytes after them (R98, R113). -/
theorem hash32_eq_combine (seed : Word) (bs : List Byte) : hash32 seed bs =
    combine seed (blocks (init seed) bs).1 bs.length (bs.drop (16 * (bs.length / 16))) := by
  rw [hash32, blocks_snd]

/-- Settles O19: `CHECKSUM` is answered with `hash32` and leaves the context, and its row leaves `SEED` and `LEN`
free. -/
theorem checksumHashesPayload : Obligations.ChecksumHashesPayload := by
  refine ⟨fun seed data s => ?_, fun c hw hop => decodeCommand_of_op .checksum c hw hop ?_⟩
  · rw [← hash32_eq_combine]
    exact exec_of_okAnswer (m := .checksum) rfl rfl
  · simp [Mnemonic.takesSeed, Mnemonic.takesPayload, Desc.rsv]

/-- Settles O20: both are answered with their constant and leave the context, and their rows have every other field
zero. -/
theorem sizeAndBlocksizeReturnFour : Obligations.SizeAndBlocksizeReturnFour := by
  refine ⟨fun s => exec_of_okAnswer (m := .size) rfl rfl, fun s => exec_of_okAnswer (m := .blocksize) rfl rfl,
    fun c hw hop => decodeCommand_of_op .size c hw hop ?_,
    fun c hw hop => decodeCommand_of_op .blocksize c hw hop ?_⟩
  all_goals simp [Mnemonic.takesSeed, Mnemonic.takesPayload, Desc.rsv, Desc.seed, Desc.len]

end Sys2Proof.Machine
end

section
/-! `CHECKSUM` against the pseudo-commands `HASH` and `DIGEST` (R77, R142): channels of encoded commands, a hasher after
`NEW` and one `WRITE`, and the three commands that return its digest. -/

namespace Sys2Proof.Machine

theorem channelBytes_encodeCommand (is : List Instr) : channelBytes (is.map encodeCommand) = is.flatMap encode := by
  rw [channelBytes, List.flatMap_map]
  rfl

section Encoded
variable {i : Instr} (hw : i.wellFormed = true)
include hw

theorem answersTo_encodeCommand_cons (cs : List Command) (s : State) :
    answersTo (encodeCommand i :: cs) s = answer i s :: answersTo cs (afterCommand (encodeCommand i) s) := by
  rw [answersTo, commandAnswer_of_ok s (decodeCommand_encodeCommand i hw)]

/-- R133: every command but `NEW` and `RESET` may stand in a streaming sequence. -/
theorem continues_encodeCommand (hn : i.mnemonic ≠ .new) (hr : i.mnemonic ≠ .reset) :
    continues (encodeCommand i) := by
  rw [continues, decodeCommand_encodeCommand i hw]
  refine ⟨encodeCommand_wellFormed i hw, ?_, ?_⟩
  · rintro seed ⟨⟩
    exact hn rfl
  · rintro ⟨⟩
    exact hr rfl

end Encoded

theorem chunk_encodeCommand_write {data : List Byte} (hw : (Instr.write data).wellFormed = true) :
    chunk (encodeCommand (.write data)) = data := by
  rw [chunk, decodeCommand_encodeCommand _ hw]

/-- A channel of encoded commands is run through, each answered in turn (R55, R63, R182). -/
theorem runSteps_encode (is : List Instr) (s : State) (rest : List Byte) (hp : s.por = false)
    (hw : ∀ i ∈ is, i.wellFormed = true) (h : s.input = is.flatMap encode ++ rest) :
    ∃ t, runSteps is.length s = .next t ∧ t.input = rest ∧
      t.responses = s.responses ++ answersTo (is.map encodeCommand) (s.setInput rest) := by
  have hwc : ∀ c ∈ is.map encodeCommand, c.wellFormed = true :=
    List.forall_mem_map.2 fun i hi => encodeCommand_wellFormed i (hw i hi)
  have hrun := runSteps_channel _ s rest hp hwc (by rw [channelBytes_encodeCommand, h])
  obtain ⟨hresp, hinput, -⟩ := afterCommands_host (is.map encodeCommand) (s.setInput rest)
  exact ⟨_, by rwa [List.length_map] at hrun, hinput, hresp⟩

/-- R77, R133: after `NEW` and one `WRITE` the hasher stands for the payload. -/
theorem hashing_new_write (seed : Word) {data : List Byte} {s : State} (hwf : s.buf.wf)
    (hw : (Instr.write data).wellFormed = true) :
    Hashing seed data (afterCommand (encodeCommand (.write data)) (afterCommand (encodeCommand (.new seed)) s)) := by
  have hchunk : [] ++ chunk (encodeCommand (.write data)) = data := chunk_encodeCommand_write hw
  have hnew : Hashing seed [] (afterCommand (encodeCommand (.new seed)) s) := by
    rw [afterCommand_encodeCommand _ _ rfl, hashing_emit]
    exact contextAfter_hashing_nil (.inl rfl) hwf
  have hwrite := hnew.afterCommand (continues_encodeCommand hw (by simp [Instr.mnemonic]) (by simp [Instr.mnemonic]))
    (hchunk.symm ▸ of_decide_eq_true hw)
  rwa [hchunk] at hwrite

/-- R77, R129: `DIGEST` returns the four digest bytes alone. -/
theorem Hashing.answer_sum_nil {seed : Word} {B : List Byte} {s : State} (h : Hashing seed B s) :
    answer (.sum []) s = okAnswer .sum 0#32 4#64 (digestBytes (hash32 seed B)) := by
  rw [answer, if_pos h.valid, digest_of_represents h.represents, h.seed_eq]
  rfl

/-- `SUM32`, `DIGEST` and `CHECKSUM` of the bytes absorbed, one after the other: the same digest three times. -/
theorem Hashing.answersTo_observations {seed : Word} {B : List Byte} {s : State} (h : Hashing seed B s)
    (hw : (Instr.checksum seed B).wellFormed = true) :
    answersTo ([.sum32, .sum [], .checksum seed B].map encodeCommand) s =
      [okAnswer .sum32 (hash32 seed B) 0#64 [], okAnswer .sum 0#32 4#64 (digestBytes (hash32 seed B)),
        okAnswer .checksum (hash32 seed B) 0#64 []] := by
  have hsum32 : Hashing seed B (Machine.afterCommand (encodeCommand .sum32) s) := by
    rw [afterCommand_encodeCommand _ _ rfl, hashing_emit]
    exact h
  simp only [List.map_cons, List.map_nil]
  rw [answersTo_encodeCommand_cons rfl, h.answer_sum32, answersTo_encodeCommand_cons rfl, hsum32.answer_sum_nil,
    answersTo_encodeCommand_cons hw]
  rfl

/-- `HASH`, `DIGEST` and `CHECKSUM` of one payload: three digests, after the responses to `NEW` and `WRITE`. -/
theorem answersTo_hash_digest_checksum (seed : Word) {data : List Byte} {s : State} (hwf : s.buf.wf)
    (hw : (Instr.write data).wellFormed = true) :
    ∃ r1 r2, answersTo
        ((Instr.pseudoHash seed data ++ Instr.pseudoDigest ++ [Instr.checksum seed data]).map encodeCommand) s =
      [r1, r2, okAnswer .sum32 (hash32 seed data) 0#64 [], okAnswer .sum 0#32 4#64 (digestBytes (hash32 seed data)),
        okAnswer .checksum (hash32 seed data) 0#64 []] := by
  have hcommands : (Instr.pseudoHash seed data ++ Instr.pseudoDigest ++ [Instr.checksum seed data]).map encodeCommand =
      encodeCommand (.new seed) :: encodeCommand (.write data) ::
        [.sum32, .sum [], .checksum seed data].map encodeCommand := (rfl)
  rw [hcommands, answersTo_encodeCommand_cons rfl, answersTo_encodeCommand_cons hw,
    (hashing_new_write seed hwf hw).answersTo_observations hw]
  exact ⟨_, _, rfl⟩

/-- Settles O35: `NEW` and `WRITE` leave a hasher that stands for the payload, so `SUM32` and `DIGEST` return the hash
of the payload, and so does `CHECKSUM`; the four bytes are the digits of that number. -/
theorem checksumAgreesWithHash : Obligations.ChecksumAgreesWithHash := by
  intro s seed data rest hp hwf hlen h
  have hpay : (Instr.write data).wellFormed = true := decide_eq_true hlen
  have hw : ∀ i ∈ Instr.pseudoHash seed data ++ Instr.pseudoDigest ++ [Instr.checksum seed data],
      i.wellFormed = true := by
    simpa [Instr.pseudoHash, Instr.pseudoDigest] using ⟨rfl, hpay, rfl, rfl, hpay⟩
  obtain ⟨t, hrun, hinput, hresp⟩ := runSteps_encode _ s rest hp hw h
  obtain ⟨r1, r2, hanswers⟩ := answersTo_hash_digest_checksum seed (s := s.setInput rest) hwf hpay
  obtain ⟨hstatus, -, -, hval, -⟩ := okAnswer_hasFields .checksum (hash32 seed data) 0#64 []
  refine ⟨t, r1, r2, _, _, _, hrun, hinput, hanswers ▸ hresp, ?_, hstatus, ?_, rfl⟩
  · rw [hval]
    exact okAnswer_hasFields ..
  · rw [hval]
    exact digestBytes_foldl (hash32 seed data)

end Sys2Proof.Machine
end

section
/-! The status of a legal command (R150, R155 to R157): which of the two faults it takes, if any; and the sequences of
legal commands in which none takes one. -/

namespace Sys2Proof

/-- The commands that raise `NotConstructed` while `VALID = 0` (R155). -/
def Instr.NeedsHasher (i : Instr) : Prop :=
  i.mnemonic = .reset ∨ i.mnemonic = .write ∨ i.mnemonic = .sum32 ∨ i.mnemonic = .sum

/-- A `WRITE` whose new length does not fit 64 bits, or a `SUM` given more bytes than its limit (R122, R130, R156). -/
def Instr.TooLong (i : Instr) (s : Machine.State) : Prop :=
  (i.mnemonic = .write ∧ s.len.toNat + i.payload.length > 2 ^ 64 - 1) ∨
    (i.mnemonic = .sum ∧ i.payload.length > 2 ^ 64 - 5)

theorem Instr.tooLong_write (data : List Byte) (s : Machine.State) :
    (Instr.write data).TooLong s ↔ 2 ^ 64 - 1 < s.len.toNat + data.length := by
  simp [Instr.TooLong, Instr.mnemonic, Instr.payload]

theorem Instr.tooLong_sum (pre : List Byte) (s : Machine.State) :
    (Instr.sum pre).TooLong s ↔ 2 ^ 64 - 5 < pre.length := by
  simp [Instr.TooLong, Instr.mnemonic, Instr.payload]

/-- The bytes that a command may add to `LEN`: those of a `WRITE` (R23). -/
def Instr.writeBytes (i : Instr) : List Byte := if i.mnemonic = .write then i.payload else []

namespace Machine

theorem okAnswer_status (m : Mnemonic) (val : Word) (cnt : BitVec 64) (rpay : List Byte) :
    (okAnswer m val cnt rpay).status = okCode :=
  status_mkResponseDesc _ _ _ _ _

theorem faultAnswer_status (f : Cause) (op : Byte) : (faultAnswer f op).status = f.code :=
  status_mkResponseDesc _ _ _ _ _

section Status
variable {i : Instr} {s : State}

theorem answer_of_unconstructed (hv : s.valid = false) (hi : i.NeedsHasher) :
    answer i s = faultAnswer .notConstructed i.mnemonic.code := by
  have hnot : ¬ s.valid = true := by simp [hv]
  cases i with
  | reset | write | sum32 | sum => exact if_neg hnot
  | new | size | blocksize | checksum => simp [Instr.NeedsHasher, Instr.mnemonic] at hi

theorem valid_of_needsHasher (hc : ¬ (s.valid = false ∧ i.NeedsHasher)) (hi : i.NeedsHasher) : s.valid = true := by
  simpa [hi] using hc

theorem answer_of_tooLong (hc : ¬ (s.valid = false ∧ i.NeedsHasher)) (h : i.TooLong s) :
    answer i s = faultAnswer .lengthOverflow i.mnemonic.code := by
  cases i with
  | write data =>
    exact answer_write_of_overflow data (valid_of_needsHasher hc (.inr (.inl rfl))) ((Instr.tooLong_write data s).1 h)
  | sum pre =>
    have hv := valid_of_needsHasher hc (.inr (.inr (.inr rfl)))
    exact (if_pos hv).trans (if_pos ((Instr.tooLong_sum pre s).1 h))
  | new | reset | sum32 | size | blocksize | checksum => simp [Instr.TooLong, Instr.mnemonic] at h

theorem answer_status_ok (hc : ¬ (s.valid = false ∧ i.NeedsHasher)) (h : ¬ i.TooLong s) :
    (answer i s).status = okCode := by
  cases i with
  | new | size | blocksize | checksum => exact okAnswer_status _ _ _ _
  | reset | sum32 =>
    rw [answer, if_pos (valid_of_needsHasher hc (by simp [Instr.NeedsHasher, Instr.mnemonic])), okAnswer_status]
  | write data =>
    rw [Instr.tooLong_write, Nat.not_lt] at h
    rw [answer_write_of_le data (valid_of_needsHasher hc (.inr (.inl rfl))) h, okAnswer_status]
  | sum pre =>
    rw [Instr.tooLong_sum] at h
    rw [answer, if_pos (valid_of_needsHasher hc (.inr (.inr (.inr rfl)))), if_neg h, okAnswer_status]

end Status

/-- Settles O8: the response is `answer`, and the chain of conditions is the order in which it checks. -/
theorem legalCommandStatus : Obligations.LegalCommandStatus := by
  intro i s
  obtain ⟨hresp, -⟩ := contextAfter_host i s
  refine ⟨_, answer i s, exec_eq i s, congrArg (· ++ [answer i s]) hresp, ?_⟩
  split_ifs with hc hlong
  · obtain ⟨hv, hi⟩ := hc
    exact answer_of_unconstructed hv hi ▸ faultAnswer_status _ _
  · exact answer_of_tooLong hc hlong ▸ faultAnswer_status _ _
  · exact answer_status_ok hc hlong

theorem written_len_le (data : List Byte) (s : State) :
    (written data s).len.toNat ≤ s.len.toNat + data.length := by
  by_cases h : s.len.toNat + data.length ≤ 2 ^ 64 - 1
  · have hlen : (written data s).len = (s.addLen data.length).len := by
      rw [written, if_neg (Nat.not_lt.2 h)]
      split_ifs <;> rfl
    rw [hlen, addLen_toNat s _ h]
  · rw [written_of_overflow data s (by omega)]
    omega

/-- `NEW` and `RESET` clear `LEN`, and only a `WRITE` adds to it. -/
theorem contextAfter_len_le (i : Instr) (s : State) :
    (contextAfter i s).len.toNat ≤ s.len.toNat + i.writeBytes.length := by
  cases i with
  | new => exact Nat.zero_le _
  | reset =>
    rw [contextAfter]
    split_ifs
    · exact Nat.zero_le _
    · exact Nat.le_add_right _ _
  | write data =>
    rw [contextAfter]
    split_ifs
    · exact written_len_le data s
    · exact Nat.le_add_right _ _
  | sum32 | sum | size | blocksize | checksum => exact Nat.le_add_right _ _

theorem answer_status_ok_of_fits {i : Instr} {s : State} (hv : s.valid = true)
    (hlen : s.len.toNat + i.writeBytes.length < 2 ^ 64)
    (hsum : i.mnemonic = .sum → i.payload.length ≤ 2 ^ 64 - 5) : (answer i s).status = okCode := by
  refine answer_status_ok (by simp [hv]) ?_
  rintro (⟨hm, h⟩ | ⟨hm, h⟩)
  · rw [Instr.writeBytes, if_pos hm] at hlen
    omega
  · exact absurd (hsum hm) (Nat.not_le.2 h)

/-- Along a sequence on a constructed hasher, `LEN` and the bytes still to be written fit 64 bits together, so no command
faults. -/
theorem answersTo_status_ok (is : List Instr) (s : State) (hv : s.valid = true)
    (hi : ∀ i ∈ is, i.wellFormed = true ∧ (i.mnemonic = .sum → i.payload.length ≤ 2 ^ 64 - 5))
    (hlen : s.len.toNat + (is.flatMap Instr.writeBytes).length < 2 ^ 64) :
    ∀ r ∈ answersTo (is.map encodeCommand) s, r.status = okCode := by
  induction is generalizing s with
  | nil => simp [answersTo]
  | cons i is ih =>
    obtain ⟨⟨hw, hsum⟩, his⟩ := List.forall_mem_cons.1 hi
    rw [List.flatMap_cons, List.length_append] at hlen
    rw [List.map_cons, answersTo_encodeCommand_cons hw, afterCommand_encodeCommand _ _ hw, List.forall_mem_cons]
    refine ⟨answer_status_ok_of_fits hv (by omega) hsum, ih _ ((contextAfter_valid i s).2 (.inl hv)) his ?_⟩
    have := contextAfter_len_le i s
    rw [State.emit_len]
    omega

/-- Settles O39: the channel is run through (`runSteps_encode`), `NEW` is answered `OK` and leaves a hasher with
`LEN = 0`, and the rest is `answersTo_status_ok`. -/
theorem legalSequencesNeverFault : Obligations.LegalSequencesNeverFault := by
  intro s seed is rest hp hi hlen h
  have hw : ∀ i ∈ Instr.new seed :: is, i.wellFormed = true :=
    List.forall_mem_cons.2 ⟨rfl, fun i his => (hi i his).1⟩
  obtain ⟨t, hrun, -, hresp⟩ := runSteps_encode _ s rest hp hw h
  refine ⟨t, _, hrun, hresp, ?_⟩
  rw [List.map_cons, answersTo_encodeCommand_cons rfl, afterCommand_encodeCommand _ _ rfl, List.forall_mem_cons]
  refine ⟨okAnswer_status .new 0#32 0#64 [], answersTo_status_ok is _ rfl hi ?_⟩
  exact (Nat.zero_add _).trans_lt hlen

end Machine

end Sys2Proof
end

section
/-! The descriptors that select no command (R67, R68, R154). -/

namespace Sys2Proof

/-- What makes a descriptor illegal: a reserved opcode, or a field that is not zero and that its opcode lacks. -/
abbrev Desc.Illegal (d : Desc) : Prop :=
  (Desc.op d = 0x00#8 ∨ 0x09#8 ≤ Desc.op d) ∨ Desc.rsv d ≠ 0#24 ∨
    (Desc.seed d ≠ 0#32 ∧ Desc.op d ≠ 0x01#8 ∧ Desc.op d ≠ 0x08#8) ∨
    (Desc.len d ≠ 0#64 ∧ (Desc.op d = 0x01#8 ∨ Desc.op d = 0x02#8 ∨ Desc.op d = 0x04#8 ∨ Desc.op d = 0x06#8 ∨
      Desc.op d = 0x07#8))

/-- The opcodes that are not reserved are those of the eight commands (R66, R67). -/
theorem reserved_iff (op : Byte) : (op = 0x00#8 ∨ 0x09#8 ≤ op) ↔ ∀ m : Mnemonic, op ≠ m.code := by
  constructor
  · rintro h m rfl
    cases m <;> simp [Mnemonic.code] at h
  · intro h
    obtain ⟨h1, h2, h3, h4, h5, h6, h7, h8⟩ : op ≠ 0x01#8 ∧ op ≠ 0x02#8 ∧ op ≠ 0x03#8 ∧ op ≠ 0x04#8 ∧ op ≠ 0x05#8 ∧
        op ≠ 0x06#8 ∧ op ≠ 0x07#8 ∧ op ≠ 0x08#8 :=
      ⟨h .new, h .reset, h .write, h .sum32, h .sum, h .size, h .blocksize, h .checksum⟩
    bv_omega

/-- A descriptor with the opcode of a command is illegal when a field that the command's row fixes is not zero. -/
theorem illegal_iff_of_op {m : Mnemonic} {d : Desc} (hop : Desc.op d = m.code) :
    Desc.Illegal d ↔ ¬ (Desc.rsv d = 0#24 ∧ (m.takesSeed = false → Desc.seed d = 0#32) ∧
      (m.takesPayload = false → Desc.len d = 0#64)) := by
  rw [Desc.Illegal, hop]
  cases m <;> simp [Mnemonic.code, Mnemonic.takesSeed, Mnemonic.takesPayload] <;> tauto

/-- R154: the illegal descriptors are those of no row. -/
theorem lookup_eq_none_iff_illegal (d : Desc) : lookup d = none ↔ Desc.Illegal d := by
  have hrow : ∀ n, lookup d = some n → Desc.op d = n.code := fun n hn =>
    ((row_covers_iff n d).1 ((lookup_eq_some_iff d n).1 hn)).1
  by_cases hr : Desc.op d = 0x00#8 ∨ 0x09#8 ≤ Desc.op d
  · exact iff_of_true
      (Option.eq_none_iff_forall_ne_some.2 fun n hn => (reserved_iff _).1 hr n (hrow n hn)) (.inl hr)
  · obtain ⟨m, hop⟩ : ∃ m : Mnemonic, Desc.op d = m.code := by simpa using mt (reserved_iff _).2 hr
    have hcovers := row_covers_iff m d
    rw [and_iff_right hop] at hcovers
    rw [illegal_iff_of_op hop, ← hcovers, ← lookup_eq_some_iff, Option.eq_none_iff_forall_ne_some]
    refine ⟨fun h => h m, fun h n hn => h ?_⟩
    rwa [mnemonic_code_injective (hop.symm.trans (hrow n hn))]

namespace Machine

/-- Settles O6: an illegal descriptor has no row and takes the fault in every state; any other is a command, whose status
is one of the three of `legalCommandStatus`. -/
theorem illegalCommandExactly : Obligations.IllegalCommandExactly := by
  intro s c rest hp hw h
  have hillegal := lookup_eq_none_iff_illegal c.desc
  refine ⟨fun hi => ?_, fun hi => ?_⟩
  all_goals rw [step_of_bytes s c rest hp hw h]
  · exact ⟨faultAnswer .illegalCommand (Desc.op c.desc), Response.isFault_mk _ _,
      runCommand_of_error c _ _ hw (decodeCommand_of_lookup_none c hw (hillegal.2 hi))⟩
  · obtain ⟨m, hm⟩ := Option.ne_none_iff_exists'.1 (mt hillegal.1 hi)
    obtain ⟨t, r, ht, hr, hstatus⟩ := legalCommandStatus (operands m c.desc c.pay) (s.setInput rest)
    refine ⟨t, r, (runCommand_of_ok c _ _ (decodeCommand_of_lookup c m hw hm)).trans ht, hr, ?_⟩
    rw [hstatus]
    split_ifs <;> decide

end Machine

end Sys2Proof
end

section
/-! A faulting command leaves the context (R152, R153). -/

namespace Sys2Proof.Machine

theorem contextAfter_of_fault (i : Instr) (s : State) (h : (answer i s).status ≠ okCode) : contextAfter i s = s := by
  cases i with
  | new => exact absurd (okAnswer_status _ _ _ _) h
  | reset =>
    refine if_neg fun hv => h ?_
    rw [answer, if_pos hv, okAnswer_status]
  | write data => exact contextAfter_write_of_quiet data s (.inr h)
  | sum32 | sum | size | blocksize | checksum => rfl

/-- A whole command, legal or not, that is answered with a fault leaves the context and returns no payload. -/
theorem command_of_fault (c : Command) (s : State) (h : (commandAnswer c s).status ≠ okCode) :
    commandContext c s = s ∧ (commandAnswer c s).rpay = [] := by
  cases hd : decodeCommand c with
  | error e =>
    refine ⟨commandContext_of_error s hd, ?_⟩
    rw [commandAnswer, hd]
    rfl
  | ok i =>
    rw [commandAnswer_of_ok s hd] at h ⊢
    refine ⟨(commandContext_of_ok s hd).trans (contextAfter_of_fault i s h), by_contra fun hpay => h ?_⟩
    obtain ⟨hok, -⟩ := (answer_formedFor i s).payload hpay
    exact hok

/-- A step that goes on with no reset asked for waits, or runs one whole command. -/
theorem step_next_cases {s t : State} (hp : s.por = false) (h : step s = .next t) :
    t = s ∨ ∃ c rest, t = afterCommand c (s.setInput rest) := by
  by_cases hi : s.input = []
  · rw [step_of_input_nil s hp hi] at h
    cases h
    exact .inl rfl
  · cases hc : takeCommand s.input with
    | none => rw [step_of_takeCommand_none s hp hi hc] at h; cases h
    | some p =>
      obtain ⟨c, rest⟩ := p
      rw [step_of_takeCommand s c rest hp hc, runCommand_eq c _ (takeCommand_wellFormed _ _ _ hc)] at h
      cases h
      exact .inr ⟨c, rest, rfl⟩

/-- Settles O9: a step with a response ran one command, and the response is that command's. -/
theorem faultsArePrecise : Obligations.FaultsArePrecise := by
  intro s t r hp hstep hresp hstatus
  rcases step_next_cases hp hstep with rfl | ⟨c, rest, rfl⟩
  · simp at hresp
  · obtain ⟨hresp', hinput, -⟩ := afterCommand_host c (s.setInput rest)
    obtain rfl : commandAnswer c (s.setInput rest) = r :=
      List.singleton_inj.1 (List.append_cancel_left (hresp'.symm.trans hresp))
    obtain ⟨hcontext, hpay⟩ := command_of_fault c (s.setInput rest) hstatus
    refine ⟨?_, hpay⟩
    rw [hinput, afterCommand, hcontext]
    rfl

end Sys2Proof.Machine
end

section
/-! The channel's other cases: a command's framing is settled by its own bytes (R62, R63), so part of a command is no
command (U6). -/

namespace Sys2Proof

theorem descOfBytes_append (bs more : List Byte) (h : 16 ≤ bs.length) : descOfBytes (bs ++ more) = descOfBytes bs := by
  rw [descOfBytes, List.take_append_of_le_length h, descOfBytes]

/-- Bytes presented after a whole command do not change which command it is. -/
theorem takeCommand_append {bs rest : List Byte} {c : Command} (more : List Byte) (h : takeCommand bs = some (c, rest)) :
    takeCommand (bs ++ more) = some (c, rest ++ more) := by
  simp only [takeCommand, Option.ite_none_right_eq_some] at h
  obtain ⟨hlen, hc⟩ := h
  have hdesc : 16 ≤ bs.length := by omega
  have hpay : (Desc.len (descOfBytes bs)).toNat ≤ (bs.drop 16).length := by rw [List.length_drop]; omega
  cases hc
  rw [takeCommand, descOfBytes_append bs more hdesc, List.drop_append_of_le_length hdesc,
    List.take_append_of_le_length hpay, List.drop_append_of_le_length hpay,
    if_pos (hlen.trans (by rw [List.length_append]; omega))]

/-- A proper part of a command frames no command: the bytes that it lacks would stand after that command. -/
theorem takeCommand_take_eq_none {c : Command} {n : Nat} (hw : c.wellFormed = true) (hn : n < c.bytes.length) :
    takeCommand (c.bytes.take n) = none := by
  refine Option.eq_none_iff_forall_ne_some.2 fun ⟨c', rest⟩ h => ?_
  have hpart := takeCommand_append (c.bytes.drop n) h
  have hwhole := takeCommand_bytes_append c [] hw
  rw [List.take_append_drop] at hpart
  rw [List.append_nil, hpart] at hwhole
  have hdrop : rest ++ c.bytes.drop n = [] := congrArg Prod.snd (Option.some.inj hwhole)
  exact (List.drop_eq_nil_iff.1 (List.append_eq_nil_iff.1 hdrop).2).not_gt hn

namespace Machine

/-- Settles O11: the sequencer's three cases other than running a command. -/
theorem powerOnResetAndWaiting : Obligations.PowerOnResetAndWaiting := by
  refine ⟨fun s hp => ⟨powerOnReset s, step_of_por s hp, rfl, rfl, rfl, rfl⟩, step_of_input_nil, ?_⟩
  intro s c n hp hw hpos hn hinput
  have hne : s.input ≠ [] := List.ne_nil_of_length_pos (by rw [hinput, List.length_take]; omega)
  exact step_of_takeCommand_none s hp hne (by rw [hinput, takeCommand_take_eq_none hw hn])

end Machine

end Sys2Proof
end

section
/-! The sample words of 95_test_vectors.md 2.12 decode because they are what the encoder writes: each is compared with its
command's encoding, and the round trip of R65 does the rest. -/

namespace Sys2Proof

/-- Bytes that begin with the encoding of a well-formed command decode to it and leave what follows (R65, R66). -/
theorem decode_of_eq_encode_append {bs rest : List Byte} {i : Instr} (hw : i.wellFormed = true)
    (hbs : bs = encode i ++ rest) : decode bs = .ok (i, rest) :=
  hbs ▸ decodeEncodeRoundTrip i rest hw

/-- Settles O4: each word is its command's encoding, that of `SUM` with one byte after it. -/
theorem sampleWordsDecode : Obligations.SampleWordsDecode := by
  refine ⟨?new, ?reset, ?write, ?sum, ?checksum⟩ <;>
    exact decode_of_eq_encode_append (by decide) (by decide)

end Sys2Proof
end
